-- ==== Sys2Proof/Word.lean ====
section
/-! DEFINITION. The words of the machine: the 16-bit machine word, the 4-bit instruction field, and the one
widening between them (00_scope.md R5, R6, R7). -/

namespace Sys2Proof

/-- A machine word: the unit of memory, of registers, of instructions and of `pc` (R5, `WORD_W` = `PC_W` = 16). -/
abbrev Word := BitVec 16

/-- One of the four fields of an instruction word (R5, `FIELD_W` = 4; R50). -/
abbrev Field := BitVec 4

/-- A field that names a general register; all 16 values are valid (R56). -/
abbrev RegIdx := Field

/-- A field that holds the immediate of ADDI or SUBI, unsigned 0 to 15 (R57). -/
abbrev Imm := Field

/-- A field that holds a jump target, a program-local slot number 0 to 15 (R58). -/
abbrev Slot := Field

/-- `zext_16`: a narrower unsigned value at 16 bits, its value unchanged (R7). -/
def zext16 (f : Field) : Word := f.setWidth 16

end Sys2Proof
end

