-- ==== Sys2Proof/Syntax.lean ====
section
/-! DEFINITION. The instructions: `Mnemonic`, the 13 names of the opcode table; `Instr`, one constructor per row of
it with the fields that have a meaning (30_encoding.md R53); `Kind`, the decoder's verdict (R61); and the assembly
statement before it is encoded (R63, R66, R67). -/

namespace Sys2Proof

/-- The 13 mnemonics of the opcode table (R53). -/
inductive Mnemonic where
  | nop | lw | sw | add | addi | sub | subi | cmp | jmp | jg | jl | mov | halt
  deriving DecidableEq, Repr

/-- An instruction with the fields R53 gives a meaning; the fields R53 lists as ignored are not kept (R55; log
entry 12). The operands stand in the order `dest`, `op1`, `op2`, each 4 bits wide by its type. -/
inductive Instr where
  /-- NOP: the whole word zero (R150). -/
  | nop
  /-- LW: `dest` = register loaded, `op1` = address register (R110). -/
  | lw (dest op1 : RegIdx)
  /-- SW: `dest` = register STORED, `op1` = address register (R111). -/
  | sw (dest op1 : RegIdx)
  /-- ADD: three registers (R121). -/
  | add (dest op1 op2 : RegIdx)
  /-- ADDI: two registers and an unsigned immediate (R122, R57). -/
  | addi (dest op1 : RegIdx) (op2 : Imm)
  /-- SUB: three registers, minuend `op1`, subtrahend `op2` (R123). -/
  | sub (dest op1 op2 : RegIdx)
  /-- SUBI: two registers and an unsigned immediate (R124, R57). -/
  | subi (dest op1 : RegIdx) (op2 : Imm)
  /-- CMP: three registers (R130). -/
  | cmp (dest op1 op2 : RegIdx)
  /-- JMP: `dest` = target slot (R141). -/
  | jmp (dest : Slot)
  /-- JG: `dest` = target slot, `op1` = register tested (R142). -/
  | jg (dest : Slot) (op1 : RegIdx)
  /-- JL: `dest` = target slot, `op1` = register tested (R143). -/
  | jl (dest : Slot) (op1 : RegIdx)
  /-- MOV: `dest` = register written, `op1` = register copied (R131). -/
  | mov (dest op1 : RegIdx)
  /-- HALT (R151). -/
  | halt
  deriving DecidableEq, Repr

/-- The mnemonic of an instruction. -/
def Instr.mnemonic : Instr → Mnemonic
  | .nop => .nop
  | .lw _ _ => .lw
  | .sw _ _ => .sw
  | .add _ _ _ => .add
  | .addi _ _ _ => .addi
  | .sub _ _ _ => .sub
  | .subi _ _ _ => .subi
  | .cmp _ _ _ => .cmp
  | .jmp _ => .jmp
  | .jg _ _ => .jg
  | .jl _ _ => .jl
  | .mov _ _ => .mov
  | .halt => .halt

/-- The `kind` output of the instruction decoder: one of the 13 instructions, or ILLEGAL (R61). -/
inductive Kind where
  | known (m : Mnemonic)
  | illegal
  deriving DecidableEq, Repr

/-- What a position of an assembly statement must hold (R66). -/
inductive Role where
  | reg | imm | label
  deriving DecidableEq, Repr

/-- An operand token as the assembler reads it (R67): a register with its decimal index, a literal integer, or any
other token, which is a label name. -/
inductive Operand where
  | reg (index : Nat)
  | imm (value : Int)
  | label (name : List Char)
  deriving DecidableEq, Repr

/-- One line of assembly source after comment and surrounding blanks are gone (R63, R64). -/
inductive SourceLine where
  | blank
  | labelDecl (name : List Char)
  | statement (command : List Char) (operands : List Operand)
  deriving DecidableEq, Repr

end Sys2Proof
end

