-- ==== Sys2Proof/WellFormed.lean ====
section
/-! DEFINITION. What is well formed. An `Instr` is so by its types: every register index and immediate is 4 bits, and
all 16 values are valid (30_encoding.md R56; log entry 12). What can be ill formed is a raw machine word (the
partition of R59) and an assembly statement (the operand table of R66); each check is a Bool. -/

namespace Sys2Proof

/-- The legal instruction words, by the ranges of R59's partition: `0x0000`, `0x1000` to `0xAFFF`, `0xC000` to
`0xCFFF`, `0xF000` to `0xFFFF`. Every other word is illegal. -/
def Word.legal (w : Word) : Bool :=
  let n := w.toNat
  n == 0 || (0x1000 ≤ n && n ≤ 0xAFFF) || (0xC000 ≤ n && n ≤ 0xCFFF) || 0xF000 ≤ n

/-- The operand roles of each command, in source order (R66; for ADD and SUB decision D19). -/
def Mnemonic.roles : Mnemonic → List Role
  | .add | .sub | .cmp => [.reg, .reg, .reg]
  | .addi | .subi => [.reg, .reg, .imm]
  | .mov | .lw | .sw => [.reg, .reg]
  | .jmp => [.label]
  | .jg | .jl => [.label, .reg]
  | .halt | .nop => []

/-- An operand token has the kind its position's role asks for (R67). -/
def Operand.fits : Role → Operand → Bool
  | .reg, .reg _ => true
  | .imm, .imm _ => true
  | .label, .label _ => true
  | _, _ => false

/-- The operand count of a command is right (R66). -/
def Mnemonic.countOk (m : Mnemonic) (ops : List Operand) : Bool :=
  ops.length == m.roles.length

/-- Every operand of a command fits its role (R66, R67). -/
def Mnemonic.rolesOk (m : Mnemonic) (ops : List Operand) : Bool :=
  (m.roles.zip ops).all fun p => p.2.fits p.1

/-- A command with its operands is well formed: count and roles are right (R66). -/
def Mnemonic.wellFormed (m : Mnemonic) (ops : List Operand) : Bool :=
  m.countOk ops && m.rolesOk ops

end Sys2Proof
end

