-- ==== Sys2Proof/Decode.lean ====
section
/-! DEFINITION. Decoding a machine word and encoding an instruction, from the one format of 30_encoding.md R50 and
the opcode map of R53. Decoding is total: every word is one of the 13 instructions or is rejected by name. -/

namespace Sys2Proof

/-- `opcode = w[15:12]` (R51). -/
def opcodeOf (w : Word) : Field := w.extractLsb' 12 4

/-- `dest = w[11:8]` (R51). -/
def destOf (w : Word) : Field := w.extractLsb' 8 4

/-- `op1 = w[7:4]` (R51). -/
def op1Of (w : Word) : Field := w.extractLsb' 4 4

/-- `op2 = w[3:0]` (R51). -/
def op2Of (w : Word) : Field := w.extractLsb' 0 4

/-- Stage 2 of R53: what the `opcode` field of a non-zero word selects. -/
def kindOfOpcode (o : Field) : Kind :=
  match o.toNat with
  | 0x1 => .known .lw
  | 0x2 => .known .sw
  | 0x3 => .known .add
  | 0x4 => .known .addi
  | 0x5 => .known .sub
  | 0x6 => .known .subi
  | 0x7 => .known .cmp
  | 0x8 => .known .jmp
  | 0x9 => .known .jg
  | 0xA => .known .jl
  | 0xC => .known .mov
  | 0xF => .known .halt
  | _ => .illegal

/-- The two-stage test of R53: the whole word `0x0000` is NOP; a non-zero word goes by its `opcode` field. -/
def kindOf (w : Word) : Kind :=
  if w = 0#16 then .known .nop else kindOfOpcode (opcodeOf w)

/-- Why a word is no instruction. -/
inductive DecodeError where
  /-- A non-zero word whose `opcode` field is `0x0`, `0xB`, `0xD` or `0xE` (R59, R152; for `0x0` decision D13).
  Safe: the core then faults as R152 says. -/
  | unassignedOpcode (w : Word)
  deriving DecidableEq, Repr

/-- The instruction a mnemonic makes of the fields of `w`; fields R53 lists as ignored are not looked at (R55). -/
def instrOf (m : Mnemonic) (w : Word) : Instr :=
  match m with
  | .nop => .nop
  | .lw => .lw (destOf w) (op1Of w)
  | .sw => .sw (destOf w) (op1Of w)
  | .add => .add (destOf w) (op1Of w) (op2Of w)
  | .addi => .addi (destOf w) (op1Of w) (op2Of w)
  | .sub => .sub (destOf w) (op1Of w) (op2Of w)
  | .subi => .subi (destOf w) (op1Of w) (op2Of w)
  | .cmp => .cmp (destOf w) (op1Of w) (op2Of w)
  | .jmp => .jmp (destOf w)
  | .jg => .jg (destOf w) (op1Of w)
  | .jl => .jl (destOf w) (op1Of w)
  | .mov => .mov (destOf w) (op1Of w)
  | .halt => .halt

/-- Decoding a word: total, an illegal word rejected by name (R53, R59, R61). -/
def decode (w : Word) : Except DecodeError Instr :=
  match kindOf w with
  | .known m => .ok (instrOf m w)
  | .illegal => .error (.unassignedOpcode w)

/-- The opcode value of each mnemonic (R53; for NOP R54). -/
def Mnemonic.opcode : Mnemonic → Field
  | .nop => 0x0#4
  | .lw => 0x1#4
  | .sw => 0x2#4
  | .add => 0x3#4
  | .addi => 0x4#4
  | .sub => 0x5#4
  | .subi => 0x6#4
  | .cmp => 0x7#4
  | .jmp => 0x8#4
  | .jg => 0x9#4
  | .jl => 0xA#4
  | .mov => 0xC#4
  | .halt => 0xF#4

/-- The bits of a word that a mnemonic's row gives a meaning: the opcode and the fields R53 does not list as ignored
(the bits not written `x` in the row's encoding). -/
def Mnemonic.usedBits : Mnemonic → Word
  | .nop => 0xFFFF#16
  | .lw | .sw | .mov | .jg | .jl => 0xFFF0#16
  | .add | .addi | .sub | .subi | .cmp => 0xFFFF#16
  | .jmp => 0xFF00#16
  | .halt => 0xF000#16

/-- The four fields side by side, `opcode` in bits 15 to 12 (R50). -/
def fieldsToWord (opcode dest op1 op2 : Field) : Word := opcode ++ dest ++ op1 ++ op2

/-- The word of an instruction, every ignored field 0 as the assembler writes it (R55, R66). -/
def encode (i : Instr) : Word :=
  let word := fieldsToWord i.mnemonic.opcode
  match i with
  | .nop | .halt => word 0 0 0
  | .lw d a | .sw d a | .mov d a => word d a 0
  | .add d a b | .sub d a b | .cmp d a b => word d a b
  | .addi d a k | .subi d a k => word d a k
  | .jmp t => word t 0 0
  | .jg t r | .jl t r => word t r 0

/-- The assembler's packing (R60): every value is masked to its low 4 bits (a negative integer by its
two's-complement form) before it is put in its place; nothing is ever refused for being too large. -/
def packWord (opcode f0 f1 f2 : Int) : Word :=
  fieldsToWord (BitVec.ofInt 4 opcode) (BitVec.ofInt 4 f0) (BitVec.ofInt 4 f1) (BitVec.ofInt 4 f2)

/-- The instruction read from a table word: one 16-bit word holds every instruction (R50, R52). -/
def decodeTableWord (nbits w : Nat) : Option Instr :=
  (decode (BitVec.ofNat 16 (w % 2 ^ nbits))).toOption

end Sys2Proof
end

