-- ==== Sys2Proof/Config.lean ====
section
/-! DEFINITION. The implementation parameters of 00_scope.md R5: constants of the hardware, not state (R20). -/

namespace Sys2Proof.Config

/-- `MEM_WORDS`, the number of words of memory: 1024 in the hardware specified (R5, D5; log entry 5). -/
abbrev memWords : Nat := 1024

/-- `PROG_OFFSET`, the first word of the program region, the entry point and the base of every jump target (R5). -/
abbrev progOffset : Nat := 512

/-- `INIT_MEM`, what word `a` of memory holds after reset: the spec's default, `0x0000` (R5, R24, D2).
It is also what an address that memory does not list reads as (log entry 2). -/
def initMem (_a : Nat) : Word := 0#16

/-- `OOB_IS_FAULT`: whether a step that finds `pc >= MEM_WORDS` faults; the spec's default, `false`, is the soft
stop (R5, D6, 90_conflicts.md C1; log entry 4). -/
def oobIsFault : Bool := false

end Sys2Proof.Config
end

