-- ==== Sys2Proof/Machine/State.lean ====
section
/-! DEFINITION. The whole architectural state (10_state.md, the tuple at its head and R23): 16 registers, `pc`,
memory and `run_state`, as plain data, with the state after reset (R24, R180). -/

namespace Sys2Proof.Machine

/-- Why the core is `Faulted` (10_state.md R19; the payload is decision D12). It is part of `run_state`: the fault
leaves the machine in a next state, not outside its states. -/
inductive FaultReason where
  /-- `UnknownOpcode(w, at)`: the fetched word is no instruction (R152). -/
  | unknownOpcode (w at_ : Word)
  /-- `PcOutOfBounds(at)`: `pc >= MEM_WORDS`, only when `OOB_IS_FAULT` is true (R92). -/
  | pcOutOfBounds (at_ : Word)
  /-- `DataAddressOutOfRange(addr, at)`: LW or SW with `x[op1] >= MEM_WORDS` (R32, decision D7). -/
  | dataAddressOutOfRange (addr at_ : Word)
  deriving DecidableEq, Repr

/-- `run_state`, the one piece of control state (10_state.md R18). -/
inductive RunState where
  | ready | running | halted
  | faulted (reason : FaultReason)
  deriving DecidableEq, Repr

/-- `Ready` or `Running`: a step executes (R90 clauses S1, S2). -/
def RunState.live : RunState → Bool
  | .ready | .running => true
  | .halted | .faulted _ => false

/-- Memory: word address and word, addresses strictly rising, no entry equal to `Config.initMem` at its address;
an address not listed reads as `Config.initMem`. The cell is the 16-bit word, the spec's addressable unit (R30);
R34 forbids a byte view (log entry 1). -/
abbrev Memory := List (Nat × Word)

/-- The state of the machine, and nothing else (R23). -/
structure State where
  /-- `x[0]` to `x[15]` (R10). -/
  regs : Vector Word 16
  /-- The program counter, a word address in `[0, MEM_WORDS]`, 16 bits wide (R13). -/
  pc : Word
  /-- The one memory, of program and data (R21, R30). -/
  mem : Memory
  /-- The control state of the sequencer (R18). -/
  runState : RunState
  deriving DecidableEq, Repr

/-- What stops the MODEL outside its states: nothing does, so there is no constructor. Every fault of the spec is a
value of `run_state`, from which a step is still defined (60_exceptions.md R163, R97; log entry 6). -/
inductive Fault where
  deriving DecidableEq, Repr

/-- What the model has no meaning for. -/
inductive Refusal where
  /-- An instruction without a meaning yet, by its mnemonic; raised by exec's arm only, and no arm raises it now.
  Safe: a run that meets it stops. -/
  | notModelled (mnemonic : String)
  deriving DecidableEq, Repr

/-- What a step and a meaning answer. -/
abbrev StepResult := Host.Outcome State Fault Refusal

/-- The machine right after reset (R24, R180): registers 0, `pc = PROG_OFFSET`, every word of memory `INIT_MEM`,
`run_state = Ready`. -/
def State.reset : State :=
  { regs := Vector.replicate 16 0#16
    pc := BitVec.ofNat 16 Config.progOffset
    mem := []
    runState := .ready }

end Sys2Proof.Machine
end

