-- ==== Sys2Proof/Machine/Flags.lean ====
section
/-! DEFINITION. Condition computations. The hardware has no flag of any kind (10_state.md R17): what other machines
keep in a flags register is here the `LTU` result written to a register and the `a_nz` signal of one step
(40_step_cycle.md R85), neither of them stored as a flag. -/

namespace Sys2Proof.Machine

/-- `LTU` (R85, R130): `0x0001` if `a < b` as unsigned integers, else `0x0000`. -/
def lessUnsigned (a b : Word) : Word := if a.toNat < b.toNat then 1#16 else 0#16

/-- `a_nz` (R85): whether a value is non-zero. Registers are unsigned, so this is the test `> 0` of JG (R142). -/
def nonZero (a : Word) : Bool := a != 0#16

end Sys2Proof.Machine
end

