-- ==== Sys2Proof/Machine/Alu.lean ====
section
/-! DEFINITION. The combinational `alu` block (40_step_cycle.md R85) under the arithmetic laws of 42_arithmetic.md
R120: operands are unsigned integers, the exact result is reduced mod 2^16, carry and borrow are lost. -/

namespace Sys2Proof.Machine

/-- `alu_op` (R85). -/
inductive AluOp where
  | add | sub | ltu | passA
  deriving DecidableEq, Repr

/-- The output `y` of the ALU (R85). -/
def alu (op : AluOp) (a b : Word) : Word :=
  match op with
  | .add => a + b
  | .sub => a - b
  | .ltu => lessUnsigned a b
  | .passA => a

end Sys2Proof.Machine
end

