-- ==== Sys2Proof/Machine/Ops.lean ====
section
/-! DEFINITION. The named operations over memory, registers, `pc` and `run_state` that every meaning is written
with: the access primitives of 20_memory.md R32 and R33, the ways a step ends (40_step_cycle.md R90: next, jump),
taking a fault (60_exceptions.md R163), and the way out of a terminal state (R167). -/

namespace Sys2Proof.Machine

/-! Memory cells (10_state.md R21). -/

/-- The word at address `a`; an address not listed reads as `INIT_MEM` (R24). -/
def Memory.read : Memory → Nat → Word
  | [], a => Config.initMem a
  | (k, v) :: rest, a => if k = a then v else Memory.read rest a

/-- Memory without an entry for `a`. -/
def Memory.erase (m : Memory) (a : Nat) : Memory := m.filter fun c => c.1 != a

/-- An entry put in before the first larger address. -/
def Memory.insert : Memory → Nat → Word → Memory
  | [], a, v => [(a, v)]
  | (k, x) :: rest, a, v => if a < k then (a, v) :: (k, x) :: rest else (k, x) :: Memory.insert rest a v

/-- Memory with word `v` at address `a`, in canonical form: no entry equal to what an unlisted address reads as. -/
def Memory.write (m : Memory) (a : Nat) (v : Word) : Memory :=
  if v = Config.initMem a then m.erase a else (m.erase a).insert a v

/-- The canonical form from address `lo` on: every key at least `lo`, strictly rising, inside memory, and no entry
equal to what its address reads as unlisted. -/
def Memory.wfFrom : Nat → Memory → Bool
  | _, [] => true
  | lo, (k, v) :: rest =>
    decide (lo ≤ k) && decide (k < Config.memWords) && decide (v ≠ Config.initMem k) && Memory.wfFrom (k + 1) rest

/-- Memory is in its canonical form. -/
def Memory.wf (m : Memory) : Bool := m.wfFrom 0

/-- The words `ws` at `base`, `base + 1`, … (R183). -/
def Memory.writeWords (m : Memory) (base : Nat) : List Word → Memory
  | [] => m
  | w :: ws => (m.write base w).writeWords (base + 1) ws

/-! Registers (R10): no register is hardwired, every index exists. -/

/-- `x[i]` (R7). -/
def State.readReg (s : State) (i : RegIdx) : Word := s.regs[i.toNat]

/-- `x[i] <- v` (R7). -/
def State.writeReg (s : State) (i : RegIdx) (v : Word) : State :=
  { s with regs := s.regs.set i.toNat v }

/-! Memory of a state. -/

/-- `mem[a]` (R7). -/
def State.word (s : State) (a : Nat) : Word := s.mem.read a

/-- `mem[a] <- v` (R7). -/
def State.setWord (s : State) (a : Nat) (v : Word) : State := { s with mem := s.mem.write a v }

/-- `MemRead(addr, 1)` (R32): the word, or the fault when there is no such address. -/
def State.memRead (s : State) (addr : Word) : Except FaultReason Word :=
  if Config.memWords ≤ addr.toNat then .error (.dataAddressOutOfRange addr s.pc)
  else .ok (s.word addr.toNat)

/-- `MemWrite(addr, 1, v)` (R32): the state with the word stored, or the fault when there is no such address. -/
def State.memWrite (s : State) (addr v : Word) : Except FaultReason State :=
  if Config.memWords ≤ addr.toNat then .error (.dataAddressOutOfRange addr s.pc)
  else .ok (s.setWord addr.toNat v)

/-- The `instruction_memory_reader` (R33): none stands for `oob`, when no word is fetched. -/
def State.fetch (s : State) : Option Word :=
  if Config.memWords ≤ s.pc.toNat then none else some (s.word s.pc.toNat)

/-! The program counter block (R16). -/

/-- The commands of the `program_counter` block (R16). -/
inductive PcOp where
  | hold | inc | jump | loadOffset
  deriving DecidableEq, Repr

/-- The next `pc` for a command: the adder of the jump base is in this block (R16, R140). -/
def PcOp.apply (op : PcOp) (pc : Word) (target : Slot) : Word :=
  match op with
  | .hold => pc
  | .inc => pc + 1#16
  | .jump => BitVec.ofNat 16 Config.progOffset + zext16 target
  | .loadOffset => BitVec.ofNat 16 Config.progOffset

/-! How a step ends (R90). -/

/-- `next` (R90): `pc + 1`, Running. -/
def State.advance (s : State) : State :=
  { s with pc := PcOp.inc.apply s.pc 0, runState := .running }

/-- `jump` (R90): `pc <- PROG_OFFSET + dest`, Running. -/
def State.jump (s : State) (target : Slot) : State :=
  { s with pc := PcOp.jump.apply s.pc target, runState := .running }

/-- HALT (R151): Halted, `pc` unchanged. -/
def State.halt (s : State) : State := { s with runState := .halted }

/-- Taking a fault, `raise F` (R163): only `run_state` changes; nothing is saved, no handler is entered. -/
def State.raise (s : State) (f : FaultReason) : State := { s with runState := .faulted f }

/-- The only way out of `Halted`, `Faulted` and the soft stop (R167): the host makes the core Ready at the entry
point; no instruction does. Registers and memory are as they are; reset and `load_program` set those themselves. -/
def State.makeReady (s : State) : State :=
  { s with pc := PcOp.loadOffset.apply s.pc 0, runState := .ready }

/-- A step that finds `pc >= MEM_WORDS` (R91, R92): the soft stop changes nothing; with `OOB_IS_FAULT` it faults. -/
def State.offEnd (s : State) (oobIsFault : Bool) : State :=
  if oobIsFault then s.raise (.pcOutOfBounds s.pc) else s

/-- The end of an instruction that writes `x[dest]`: write, then `next` (R90). -/
def State.writeBack (s : State) (dest : RegIdx) (v : Word) : State := (s.writeReg dest v).advance

/-- The end of a conditional jump: `jump` or `next` (R90). -/
def State.jumpIf (s : State) (taken : Bool) (target : Slot) : State :=
  if taken then s.jump target else s.advance

/-- A loaded word placed where the next step fetches: at `pc` when the core can fetch there, else at the entry
point of a core made Ready, as a load does (R183, R167; log entry 9). -/
def State.placeWord (s : State) (w : Word) : State :=
  let t := if s.runState.live && decide (s.pc.toNat < Config.memWords) then s else s.makeReady
  t.setWord t.pc.toNat w

end Sys2Proof.Machine
end

