-- ==== Sys2Proof/Machine/Operands.lean ====
section
/-! DEFINITION. The operand forms (30_encoding.md R56, R57; 41_load_store.md R112). There are three: a register, an
immediate, and register-indirect memory. A jump target is an operand of `PcOp.apply` (R58, R140). -/

namespace Sys2Proof.Machine

/-- A register operand: the whole 16-bit value of `x[i]` (R56). -/
def State.regOperand (s : State) (i : RegIdx) : Word := s.readReg i

/-- The immediate of ADDI and SUBI: the field zero-extended, never scaled or sign-extended (R57). -/
def immOperand (k : Imm) : Word := zext16 k

/-- The effective address of LW and SW: the whole value of `x[op1]`, no offset, no base update (R112). -/
def State.effectiveAddress (s : State) (op1 : RegIdx) : Word := s.readReg op1

end Sys2Proof.Machine
end

