-- ==== Sys2Proof/Machine/Arithmetic.lean ====
section
/-! DEFINITION. Arithmetic (42_arithmetic.md). No flags, no faults. -/

namespace Sys2Proof.Machine

/-- ADD (R121): `x[dest] <- (x[op1] + x[op2]) mod 2^16`. -/
def execAdd (dest op1 op2 : RegIdx) (s : State) : StepResult :=
  .next (s.writeBack dest (alu .add (s.regOperand op1) (s.regOperand op2)))

/-- ADDI (R122): `x[dest] <- (x[op1] + zext_16(op2)) mod 2^16`. -/
def execAddi (dest op1 : RegIdx) (op2 : Imm) (s : State) : StepResult :=
  .next (s.writeBack dest (alu .add (s.regOperand op1) (immOperand op2)))

/-- SUB (R123): `x[dest] <- (x[op1] - x[op2]) mod 2^16`. -/
def execSub (dest op1 op2 : RegIdx) (s : State) : StepResult :=
  .next (s.writeBack dest (alu .sub (s.regOperand op1) (s.regOperand op2)))

/-- SUBI (R124): `x[dest] <- (x[op1] - zext_16(op2)) mod 2^16`. -/
def execSubi (dest op1 : RegIdx) (op2 : Imm) (s : State) : StepResult :=
  .next (s.writeBack dest (alu .sub (s.regOperand op1) (immOperand op2)))

end Sys2Proof.Machine
end

