-- ==== Sys2Proof/Machine/CompareMove.lean ====
section
/-! DEFINITION. Compare and move (43_compare_move.md). No flags, no faults. -/

namespace Sys2Proof.Machine

/-- CMP (R130): `x[dest] <- 1` if `x[op1] < x[op2]` unsigned, else `0`. -/
def execCmp (dest op1 op2 : RegIdx) (s : State) : StepResult :=
  .next (s.writeBack dest (alu .ltu (s.regOperand op1) (s.regOperand op2)))

/-- MOV (R131): `x[dest] <- x[op1]`. -/
def execMov (dest op1 : RegIdx) (s : State) : StepResult :=
  .next (s.writeBack dest (s.regOperand op1))

end Sys2Proof.Machine
end

