-- ==== Sys2Proof/Machine/Jumps.lean ====
section
/-! DEFINITION. Control transfer (44_jumps.md). No flags, no faults, no register or memory written. -/

namespace Sys2Proof.Machine

/-- JMP (R141): `pc <- PROG_OFFSET + dest`. -/
def execJmp (dest : Slot) (s : State) : StepResult := .next (s.jump dest)

/-- JG (R142): jump if `x[op1] != 0`, else next. -/
def execJg (dest : Slot) (op1 : RegIdx) (s : State) : StepResult :=
  .next (s.jumpIf (nonZero (s.regOperand op1)) dest)

/-- JL (R143): jump if `x[op1] = 0`, else next. -/
def execJl (dest : Slot) (op1 : RegIdx) (s : State) : StepResult :=
  .next (s.jumpIf (!nonZero (s.regOperand op1)) dest)

end Sys2Proof.Machine
end

