-- ==== Sys2Proof/Machine/LoadStore.lean ====
section
/-! DEFINITION. Load and store (41_load_store.md). -/

namespace Sys2Proof.Machine

/-- LW (R110): `x[dest] <- MemRead(x[op1], 1)`, then next; a bad address raises and changes nothing else. -/
def execLw (dest op1 : RegIdx) (s : State) : StepResult :=
  match s.memRead (s.effectiveAddress op1) with
  | .ok v => .next (s.writeBack dest v)
  | .error f => .next (s.raise f)

/-- SW (R111): `MemWrite(x[op1], 1, x[dest])`, then next; a bad address raises and changes nothing else. -/
def execSw (dest op1 : RegIdx) (s : State) : StepResult :=
  match s.memWrite (s.effectiveAddress op1) (s.regOperand dest) with
  | .ok t => .next t.advance
  | .error f => .next (s.raise f)

end Sys2Proof.Machine
end

