-- ==== Sys2Proof/Machine/NopHalt.lean ====
section
/-! DEFINITION. NOP and HALT (45_nop_halt.md). -/

namespace Sys2Proof.Machine

/-- NOP (R150): `pc <- pc + 1`. -/
def execNop (s : State) : StepResult := .next s.advance

/-- HALT (R151): `run_state <- Halted`; `pc` keeps the address of the HALT word. -/
def execHalt (s : State) : StepResult := .next s.halt

end Sys2Proof.Machine
end

