-- ==== Sys2Proof/Machine/Dispatch.lean ====
section
/-! DEFINITION. The execute clause of the step, one arm per instruction (40_step_cycle.md R90, S5 and S7). -/

namespace Sys2Proof.Machine

/-- What a decoded instruction does to a state (R90, S5 and S7). -/
def exec (i : Instr) (s : State) : Host.Outcome State Fault Refusal :=
  match i with
  | .nop => Sys2Proof.Machine.execNop s
  | .lw dest op1 => Sys2Proof.Machine.execLw dest op1 s
  | .sw dest op1 => Sys2Proof.Machine.execSw dest op1 s
  | .add dest op1 op2 => Sys2Proof.Machine.execAdd dest op1 op2 s
  | .addi dest op1 op2 => Sys2Proof.Machine.execAddi dest op1 op2 s
  | .sub dest op1 op2 => Sys2Proof.Machine.execSub dest op1 op2 s
  | .subi dest op1 op2 => Sys2Proof.Machine.execSubi dest op1 op2 s
  | .cmp dest op1 op2 => Sys2Proof.Machine.execCmp dest op1 op2 s
  | .jmp dest => Sys2Proof.Machine.execJmp dest s
  | .jg dest op1 => Sys2Proof.Machine.execJg dest op1 s
  | .jl dest op1 => Sys2Proof.Machine.execJl dest op1 s
  | .mov dest op1 => Sys2Proof.Machine.execMov dest op1 s
  | .halt => Sys2Proof.Machine.execHalt s

end Sys2Proof.Machine
end

