-- ==== Sys2Proof/Machine/Step.lean ====
section
/-! DEFINITION. The step (40_step_cycle.md R90): its clauses in their order, each an operation defined elsewhere. -/

namespace Sys2Proof.Machine

/-- One step with the parameter `OOB_IS_FAULT` as an argument (R5, R90). Clauses S1 and S2: a terminal core changes
nothing (R96, R97). S3: no fetch at or past the end of memory (R91, R92). S4 to S7: fetch, decode, execute; an
illegal word raises UnknownOpcode (R152). -/
def stepWith (oobIsFault : Bool) (s : State) : StepResult :=
  match s.runState with
  | .halted | .faulted _ => .next s
  | .ready | .running =>
    match s.fetch with
    | none => .next (s.offEnd oobIsFault)
    | some w =>
      match decode w with
      | .ok i => exec i s
      | .error (.unassignedOpcode w) => .next (s.raise (.unknownOpcode w s.pc))

/-- The step of the hardware (R90), `OOB_IS_FAULT` at its default. -/
def step (s : State) : Host.Outcome State Fault Refusal := stepWith Config.oobIsFault s

/-- `s` with the instruction word placed where the next step fetches (log entry 9). -/
def State.withFetchWord (s : State) (nbits w : Nat) : State :=
  s.placeWord (BitVec.ofNat 16 (w % 2 ^ nbits))

end Sys2Proof.Machine
end

