-- ==== Sys2Proof/Machine/Assembler.lean ====
section
/-! DEFINITION. The assembler's syntax and its text-to-word mapping (30_encoding.md section 7, R62 to R72), which R3
item 5 puts in scope: it fixes what words a program consists of. It knows nothing of the core (R62). -/

namespace Sys2Proof.Machine

/-- A text cut at every character that meets `p` (the characters themselves dropped). -/
def splitAtChars (p : Char → Bool) : List Char → List (List Char)
  | [] => [[]]
  | c :: cs =>
    let parts := splitAtChars p cs
    if p c then [] :: parts else (c :: parts.headD []) :: parts.tail

/-- The blank characters around and between tokens (log entry 11). -/
def isBlank (c : Char) : Bool := c == ' ' || c == '\t' || c == '\r'

/-- The source lines of a text (R63). -/
def sourceLines (text : List Char) : List (List Char) := splitAtChars (· == '\n') text

/-- A line without its comment, "from the first `;` to the end of the line", and surrounding blanks (R64). -/
def strip (line : List Char) : List Char :=
  (((line.takeWhile (· != ';')).dropWhile isBlank).reverse.dropWhile isBlank).reverse

/-- The comma-or-space-separated tokens of a line (R63). Every comma and blank is a separator and only that, wherever
it stands: repeated, leading and trailing commas and a comma after the command are dropped, so that `ADD,R1,,R2,R3,` is
read as `ADD R1, R2, R3`. R63 does not show these forms and 93_implementation_defined.md U16 leaves them open: DESIGN
CHOICE, log entry 11. -/
def tokens (line : List Char) : List (List Char) :=
  (splitAtChars (fun c => isBlank c || c == ',') line).filter (· != [])

/-- A non-empty run of decimal digits. -/
def isNumeral (t : List Char) : Bool := t != [] && t.all Char.isDigit

/-- The value of a run of decimal digits. -/
def numeralValue (t : List Char) : Nat := t.foldl (fun n c => 10 * n + (c.toNat - '0'.toNat)) 0

/-- The kind and value of an operand token (R67). The plus sign, and reading every other token as a label, are log
entry 11's. -/
def parseOperand (t : List Char) : Operand :=
  match t with
  | 'R' :: ds => if isNumeral ds then .reg (numeralValue ds) else .label t
  | '-' :: ds => if isNumeral ds then .imm (-(numeralValue ds : Int)) else .label t
  | '+' :: ds => if isNumeral ds then .imm (numeralValue ds) else .label t
  | _ => if isNumeral t then .imm (numeralValue t) else .label t

/-- What a source line is (R63, R64): blank, a label declaration when it ends with `:`, else a statement.
What a label name may hold, and the empty command of a line of commas alone, are log entry 11's. -/
def classify (raw : List Char) : SourceLine :=
  let line := strip raw
  if line = [] then .blank
  else if line.getLast? = some ':' then .labelDecl line.dropLast
  else .statement ((tokens line).headD []) ((tokens line).tail.map parseOperand)

/-- The assembly errors, each with its line number (R70). -/
inductive AssemblyError where
  | duplicateLabel (line : Nat)
  | unknownMnemonic (line : Nat)
  | wrongOperandCount (line : Nat)
  /-- An operand token of the wrong kind for a position that asks for `expected` (R67; for a number or a register in
  a label position R72, decision D21). -/
  | roleMismatch (expected : Role) (line : Nat)
  | unresolvedLabel (line : Nat)
  deriving DecidableEq, Repr

/-- The label table: names and program slots (R64). -/
abbrev LabelTable := List (List Char × Nat)

/-- A recorded line: what stands in one program slot (R64). -/
inductive Record where
  /-- The NOP that a label declaration inserts (R64, R65). -/
  | placeholder
  | statement (line : Nat) (command : List Char) (operands : List Operand)
  deriving DecidableEq, Repr

/-- Pass 1 (R64): source lines numbered from `line`, slots from `slot`; the label table and the records in slot
order, or the first duplicate label. -/
def collect (table : LabelTable) (line slot : Nat) :
    List SourceLine → Except AssemblyError (LabelTable × List Record)
  | [] => .ok (table, [])
  | .blank :: rest => collect table (line + 1) slot rest
  | .labelDecl name :: rest =>
    match table.lookup name with
    | some _ => .error (.duplicateLabel line)
    | none =>
      match collect ((name, slot) :: table) (line + 1) (slot + 1) rest with
      | .ok (t, rs) => .ok (t, .placeholder :: rs)
      | .error e => .error e
  | .statement command operands :: rest =>
    match collect table (line + 1) (slot + 1) rest with
    | .ok (t, rs) => .ok (t, .statement line command operands :: rs)
    | .error e => .error e

/-- The source spelling of a mnemonic (R63; upper case, decision D20). -/
def mnemonicName : Mnemonic → List Char
  | .nop => "NOP".toList
  | .lw => "LW".toList
  | .sw => "SW".toList
  | .add => "ADD".toList
  | .addi => "ADDI".toList
  | .sub => "SUB".toList
  | .subi => "SUBI".toList
  | .cmp => "CMP".toList
  | .jmp => "JMP".toList
  | .jg => "JG".toList
  | .jl => "JL".toList
  | .mov => "MOV".toList
  | .halt => "HALT".toList

/-- The 13 entries of the opcode table (R53). -/
def allMnemonics : List Mnemonic :=
  [.nop, .lw, .sw, .add, .addi, .sub, .subi, .cmp, .jmp, .jg, .jl, .mov, .halt]

/-- The command looked up in the opcode table (R66). There is no CMPI (R71, R125). -/
def lookupMnemonic (command : List Char) : Option Mnemonic :=
  allMnemonics.find? fun m => mnemonicName m == command

/-- The integer an operand packs to (R66, R67, R68). -/
def operandValue (table : LabelTable) (line : Nat) : Role → Operand → Except AssemblyError Int
  | .reg, .reg n => .ok n
  | .imm, .imm v => .ok v
  | .label, .label name =>
    match table.lookup name with
    | some slot => .ok slot
    | none => .error (.unresolvedLabel line)
  | role, _ => .error (.roleMismatch role line)

/-- The integers of the operands of a statement, in source order, which is field order (R66). -/
def operandValues (table : LabelTable) (line : Nat) :
    List (Role × Operand) → Except AssemblyError (List Int)
  | [] => .ok []
  | (role, op) :: rest =>
    match operandValue table line role op with
    | .error e => .error e
    | .ok v =>
      match operandValues table line rest with
      | .error e => .error e
      | .ok vs => .ok (v :: vs)

/-- A command and its operand integers as a word, absent fields 0 (R60, R66). -/
def packStatement (m : Mnemonic) (fields : List Int) : Word :=
  packWord m.opcode.toNat (fields.getD 0 0) (fields.getD 1 0) (fields.getD 2 0)

/-- One statement: look the command up, check the count, then each operand's role, and pack (R66). -/
def encodeStatement (table : LabelTable) (line : Nat) (command : List Char) (operands : List Operand) :
    Except AssemblyError Word :=
  match lookupMnemonic command with
  | none => .error (.unknownMnemonic line)
  | some m =>
    if m.countOk operands then
      match operandValues table line (m.roles.zip operands) with
      | .ok fields => .ok (packStatement m fields)
      | .error e => .error e
    else .error (.wrongOperandCount line)

/-- One recorded line (R66); a placeholder is an assembled NOP (R54, R64). -/
def encodeRecord (table : LabelTable) : Record → Except AssemblyError Word
  | .placeholder => .ok (packStatement .nop [])
  | .statement line command operands => encodeStatement table line command operands

/-- Pass 2 (R66): every record in slot order, or the first error. -/
def encodeRecords (table : LabelTable) : List Record → Except AssemblyError (List Word)
  | [] => .ok []
  | r :: rest =>
    match encodeRecord table r with
    | .error e => .error e
    | .ok w =>
      match encodeRecords table rest with
      | .error e => .error e
      | .ok ws => .ok (w :: ws)

/-- The words of classified source lines: both passes, with no partial result (R62). -/
def assembleLines (lines : List SourceLine) : Except AssemblyError (List Word) :=
  match collect [] 1 0 lines with
  | .error e => .error e
  | .ok (table, records) => encodeRecords table records

/-- `assemble(source_text)` on characters (R62). -/
def assembleChars (text : List Char) : Except AssemblyError (List Word) :=
  assembleLines ((sourceLines text).map classify)

/-- `assemble(source_text)` (R62). -/
def assemble (source : String) : Except AssemblyError (List Word) := assembleChars source.toList

end Sys2Proof.Machine
end

