-- ==== Sys2Proof/Machine/Datapath.lean ====
section
/-! DEFINITION. The hardware view of one step: the six blocks (40_step_cycle.md R80), the control signals of the
decoder (30_encoding.md R61) and the data path (R81). The instruction rules in the family files are the machine;
this is the same step in signals, to be proved equal to it (R61: where they disagree, the rule is right). -/

namespace Sys2Proof.Machine

/-- `rb_sel`: the index of read port B (R61). -/
inductive RbSel where
  | op2 | dest
  deriving DecidableEq, Repr

/-- `alu_b_sel`: input B of the ALU (R61). -/
inductive AluBSel where
  | reg | imm
  deriving DecidableEq, Repr

/-- `wb_sel`: the value written to `x[dest]` (R61). -/
inductive WbSel where
  | alu | mem
  deriving DecidableEq, Repr

/-- `pc_sel` (R61). -/
inductive PcSel where
  | inc | jump | jumpIfNz | jumpIfZ | hold
  deriving DecidableEq, Repr

/-- The control outputs of the `instruction_decoder` (R61). -/
structure Control where
  rfWEn : Bool
  rbSel : RbSel
  aluOp : AluOp
  aluBSel : AluBSel
  memRd : Bool
  memWr : Bool
  wbSel : WbSel
  pcSel : PcSel
  halt : Bool
  illegal : Bool
  deriving DecidableEq, Repr

/-- Values for the signals R61's table marks "not used, any value". -/
structure DontCare where
  rbSel : RbSel
  aluOp : AluOp
  aluBSel : AluBSel
  wbSel : WbSel
  deriving DecidableEq, Repr

/-- A row of R61's table that writes no register and makes no data access. -/
def Control.quiet (x : DontCare) (pcSel : PcSel) : Control :=
  { rfWEn := false, rbSel := x.rbSel, aluOp := x.aluOp, aluBSel := x.aluBSel, memRd := false, memWr := false
    wbSel := x.wbSel, pcSel := pcSel, halt := false, illegal := false }

/-- A row of R61's table that writes an ALU result. -/
def Control.compute (x : DontCare) (rbSel : RbSel) (op : AluOp) (b : AluBSel) : Control :=
  { Control.quiet x .inc with rfWEn := true, rbSel := rbSel, aluOp := op, aluBSel := b, wbSel := .alu }

/-- The control table of R61, row by row. -/
def controlOf (x : DontCare) : Kind → Control
  | .known .nop => Control.quiet x .inc
  | .known .lw => { Control.quiet x .inc with rfWEn := true, memRd := true, wbSel := .mem }
  | .known .sw => { Control.quiet x .inc with rbSel := .dest, memWr := true }
  | .known .add => Control.compute x .op2 .add .reg
  | .known .addi => Control.compute x x.rbSel .add .imm
  | .known .sub => Control.compute x .op2 .sub .reg
  | .known .subi => Control.compute x x.rbSel .sub .imm
  | .known .cmp => Control.compute x .op2 .ltu .reg
  | .known .mov => Control.compute x x.rbSel .passA x.aluBSel
  | .known .jmp => Control.quiet x .jump
  | .known .jg => { Control.quiet x .jumpIfNz with aluOp := .passA }
  | .known .jl => { Control.quiet x .jumpIfZ with aluOp := .passA }
  | .known .halt => { Control.quiet x .hold with halt := true }
  | .illegal => { Control.quiet x .hold with illegal := true }

/-- The command the FSM gives the program counter from `pc_sel` and `a_nz` (R61, R81). -/
def PcSel.toOp (sel : PcSel) (aNz : Bool) : PcOp :=
  match sel with
  | .inc => .inc
  | .jump => .jump
  | .jumpIfNz => if aNz then .jump else .inc
  | .jumpIfZ => if aNz then .inc else .jump
  | .hold => .hold

/-- The signals of one step on word `w`, and their write back (R81). Both read ports and the data read see the state
from before the step (R12, R93); a faulting step writes nothing but `run_state`. -/
def executeSignals (x : DontCare) (w : Word) (s : State) : State :=
  let c := controlOf x (kindOf w)
  let raData := s.readReg (op1Of w)
  let rbData := s.readReg (match c.rbSel with | .op2 => op2Of w | .dest => destOf w)
  let y := alu c.aluOp raData (match c.aluBSel with | .reg => rbData | .imm => zext16 (op2Of w))
  let pc := (c.pcSel.toOp (nonZero raData)).apply s.pc (destOf w)
  if c.illegal then s.raise (.unknownOpcode w s.pc)
  else if c.halt then { s with pc := pc, runState := .halted }
  else if (c.memRd || c.memWr) && decide (Config.memWords ≤ raData.toNat) then
    s.raise (.dataAddressOutOfRange raData s.pc)
  else
    let wData := match c.wbSel with | .alu => y | .mem => s.word raData.toNat
    let t := if c.rfWEn then s.writeReg (destOf w) wData else s
    let t := if c.memWr then t.setWord raData.toNat rbData else t
    { t with pc := pc, runState := .running }

/-- One step of the six blocks (R80, R81), for any values of the unused signals. -/
def datapathStep (x : DontCare) (oobIsFault : Bool) (s : State) : State :=
  if s.runState.live then
    match s.fetch with
    | none => s.offEnd oobIsFault
    | some w => executeSignals x w s
  else s

end Sys2Proof.Machine
end

