-- ==== Sys2Proof/Machine/Driver.lean ====
section
/-! DEFINITION. The host around the core: its moves (reset, `load_program`, a step request), what each reports, and
the snapshots (40_step_cycle.md R82, R84, R95, R98, R99; 70_reset_and_hazards.md R180, R183, R184). The host moves
only between steps, so a move is a function of the state (R98). -/

namespace Sys2Proof.Machine

/-- What a step reports (R95). -/
inductive StepOutcome where
  | continued | halted
  | faulted (reason : FaultReason)
  | pcOutOfBounds
  deriving DecidableEq, Repr

/-- The report of a step from the state before and the state after it (R95): the soft stop when a live core found
`pc >= MEM_WORDS` and did not fault; else what `run_state` now is. No state holds it (log entry 7). -/
def outcomeOf (oobIsFault : Bool) (before after : State) : StepOutcome :=
  if before.runState.live && before.fetch.isNone && !oobIsFault then .pcOutOfBounds
  else match after.runState with
    | .halted => .halted
    | .faulted r => .faulted r
    | .ready | .running => .continued

/-- Memory filled from an image of its `MEM_WORDS` words, in canonical form (R24 with `INIT_MEM` an argument). -/
def Memory.ofImage (image : Nat → Word) : Memory :=
  ((List.range Config.memWords).filter fun a => image a != Config.initMem a).map fun a => (a, image a)

/-- Reset with the initial memory as an argument (R5, R180, D2); `State.reset` is this at the default `INIT_MEM`. -/
def resetWith (image : Nat → Word) : State := { State.reset with mem := Memory.ofImage image }

/-- Why a load is refused (R184): the program has more than `MEM_WORDS - PROG_OFFSET` words (decision D11). -/
inductive LoadError where
  | tooLong
  deriving DecidableEq, Repr

/-- `load_program(words)` (R183, R184): the words from `PROG_OFFSET` on, `pc` and `run_state` as after reset,
registers and the rest of memory kept; a program that does not fit is refused and changes nothing. -/
def State.loadProgram (s : State) (words : List Word) : Except LoadError State :=
  if Config.memWords - Config.progOffset < words.length then .error .tooLong
  else .ok { s.makeReady with mem := s.mem.writeWords Config.progOffset words }

/-- The moves of the host that can change the state (R84, R98). -/
inductive HostMove where
  | reset
  | load (words : List Word)
  | step
  deriving DecidableEq, Repr

/-- What the host is told. -/
inductive HostReply where
  | resetDone | loaded
  | loadRefused (e : LoadError)
  | stepped (o : StepOutcome)
  deriving DecidableEq, Repr

/-- One host move (R84): the state after it and its reply. A refused load leaves the state as it was (R184). -/
def drive (s : State) : HostMove → Host.Outcome (State × HostReply) Fault Refusal
  | .reset => .next (State.reset, .resetDone)
  | .load words =>
    match s.loadProgram words with
    | .ok t => .next (t, .loaded)
    | .error e => .next (s, .loadRefused e)
  | .step =>
    match step s with
    | .next t => .next (t, .stepped (outcomeOf Config.oobIsFault s t))
    | .fault r => .fault r
    | .refused r => .refused r

/-- What the host can read between steps, changing nothing (R99): the 16 registers, every word of memory, and by
decision D17 `pc` and `run_state`. -/
structure Snapshot where
  regs : Vector Word 16
  mem : List Word
  pc : Word
  runState : RunState
  deriving DecidableEq, Repr

/-- The snapshot of a state (R99). -/
def State.snapshot (s : State) : Snapshot :=
  { regs := s.regs
    mem := (List.range Config.memWords).map s.word
    pc := s.pc
    runState := s.runState }

end Sys2Proof.Machine
end

