-- ==== Sys2Proof/Safety.lean ====
section
/-! DEFINITION. What claims are stated in: the invariant of the machine, the states the host can bring it to, and
the end of a run. -/

namespace Sys2Proof.Machine

/-- The recorded reason of a fault names what the state still shows (60_exceptions.md R163, R164: faults are precise,
nothing but `run_state` changed): the word at `pc`, or the address in the register that the LW or SW at `pc` names. -/
def State.showsCause (s : State) : FaultReason → Prop
  | .unknownOpcode w a => a = s.pc ∧ s.fetch = some w ∧ w.legal = false
  | .pcOutOfBounds a => a = s.pc ∧ s.fetch = none
  | .dataAddressOutOfRange addr a =>
    a = s.pc ∧ Config.memWords ≤ addr.toNat ∧
      ∃ w d r, s.fetch = some w ∧ (decode w = .ok (.lw d r) ∨ decode w = .ok (.sw d r)) ∧ s.readReg r = addr

/-- The invariant of the machine. -/
structure State.Inv (s : State) : Prop where
  /-- Memory is in its canonical form, every listed address inside memory. -/
  memory : s.mem.wf = true
  /-- `pc` never goes below 512 (20_memory.md R31). -/
  pcLow : Config.progOffset ≤ s.pc.toNat
  /-- `pc` is in `[0, MEM_WORDS]` (10_state.md R13, R15). -/
  pcHigh : s.pc.toNat ≤ Config.memWords
  /-- Ready means `pc = PROG_OFFSET` (R18). -/
  readyAtOffset : s.runState = .ready → s.pc.toNat = Config.progOffset
  /-- Halted means that `pc` keeps the address of a HALT word (45_nop_halt.md R151). -/
  haltedAtHalt : s.runState = .halted → ∃ w, s.fetch = some w ∧ decode w = .ok .halt
  /-- Faulted means that the recorded cause is still there to see. -/
  faultShown : ∀ r, s.runState = .faulted r → s.showsCause r

/-- The states the host can bring the machine to: reset, then any sequence of host moves (R84, R98). -/
inductive Reachable : State → Prop where
  | reset : Reachable State.reset
  | move {s t : State} (m : HostMove) (reply : HostReply) :
      Reachable s → drive s m = .next (t, reply) → Reachable t

/-- A report after which a run has ended (40_step_cycle.md R101). -/
def StepOutcome.ended : StepOutcome → Bool
  | .continued => false
  | .halted | .faulted _ | .pcOutOfBounds => true

/-- A core that executes its next instruction: live, with `pc` inside memory (R90, past clauses S1 to S3). -/
def State.executes (s : State) : Prop := s.runState.live = true ∧ s.pc.toNat < Config.memWords

/-- The word such a core fetches (R90, S4). -/
def State.current (s : State) : Word := s.word s.pc.toNat

end Sys2Proof.Machine

namespace Sys2Proof

/-- The register an instruction writes when it completes, from the table of 10_state.md R11. -/
def Instr.destReg : Instr → Option RegIdx
  | .lw d _ | .mov d _ => some d
  | .add d _ _ | .sub d _ _ | .cmp d _ _ => some d
  | .addi d _ _ | .subi d _ _ => some d
  | .nop | .sw _ _ | .jmp _ | .jg _ _ | .jl _ _ | .halt => none

/-- The registers an instruction reads, from the table of 10_state.md R11. -/
def Instr.readRegs : Instr → List RegIdx
  | .lw _ a | .mov _ a => [a]
  | .sw d a => [a, d]
  | .add _ a b | .sub _ a b | .cmp _ a b => [a, b]
  | .addi _ a _ | .subi _ a _ => [a]
  | .jg _ r | .jl _ r => [r]
  | .nop | .jmp _ | .halt => []

/-- The source lines that take a program slot, in order (30_encoding.md R64). -/
def slotLines (lines : List SourceLine) : List SourceLine := lines.filter (· != .blank)

end Sys2Proof
end

