-- ==== Sys2Proof/Certificates/Slice0/Obligations.lean ====
section
/-! DEFINITION. The statements for the provers, each from a numbered rule of the spec or derived from its sections.
A decision D<n> of 92_eei_decisions.md is the spec's own choice; a statement that rests on one names it. Results are
stated on integers (42_arithmetic.md R120), words by the digits the spec writes, not by the model's encoder. -/

open Sys2Proof Sys2Proof.Machine

/-! The instructions: encoding, completion, result and frame. -/

/-- NOP (R150): the word `0x0000`; `pc + 1`, Running, Continued, nothing else changes. -/
def Obligations.NopOnlyAdvancesPc : Prop :=
  decode 0x0000#16 = .ok .nop ∧ encode .nop = 0x0000#16 ∧
  (∀ w, decode w = .ok .nop → w = 0x0000#16) ∧
  ∀ s : State, ∃ t, exec .nop s = .next t ∧
    t.pc = s.pc + 1#16 ∧ t.runState = .running ∧
    (∀ r, t.readReg r = s.readReg r) ∧ (∀ x, t.word x = s.word x) ∧
    (s.executes → ∀ oob, outcomeOf oob s t = .continued)

/-- LW (R110) at an address inside memory; `op2` is ignored (decision D14). The bad address is DataFaultIsPrecise. -/
def Obligations.LwLoadsTheAddressedWord : Prop :=
  ∀ d a x : Field,
    decode (BitVec.ofNat 16 (0x1000 + d.toNat * 0x100 + a.toNat * 0x10 + x.toNat)) = .ok (.lw d a) ∧
    ∀ s : State, (s.readReg a).toNat < 1024 → ∃ t, exec (.lw d a) s = .next t ∧
      t.readReg d = s.word (s.effectiveAddress a).toNat ∧
      (∀ r, r ≠ d → t.readReg r = s.readReg r) ∧ (∀ y, t.word y = s.word y) ∧
      t.pc = s.pc + 1#16 ∧ t.runState = .running

/-- SW (R111) at an address inside memory; `op2` is ignored (decision D14). The address stored to is the value of
the register named by `op1`. -/
def Obligations.SwStoresOneWord : Prop :=
  ∀ d a x : Field,
    decode (BitVec.ofNat 16 (0x2000 + d.toNat * 0x100 + a.toNat * 0x10 + x.toNat)) = .ok (.sw d a) ∧
    ∀ s : State, (s.readReg a).toNat < 1024 → ∃ t, exec (.sw d a) s = .next t ∧
      t.word (s.effectiveAddress a).toNat = s.readReg d ∧
      (∀ y, y ≠ (s.effectiveAddress a).toNat → t.word y = s.word y) ∧
      (∀ r, t.readReg r = s.readReg r) ∧ t.pc = s.pc + 1#16 ∧ t.runState = .running

/-- ADD (R121). -/
def Obligations.AddWritesSumModTwoPow16 : Prop :=
  ∀ d a b : Field,
    decode (BitVec.ofNat 16 (0x3000 + d.toNat * 0x100 + a.toNat * 0x10 + b.toNat)) = .ok (.add d a b) ∧
    ∀ s : State, ∃ t, exec (.add d a b) s = .next t ∧
      (t.readReg d).toNat = ((s.readReg a).toNat + (s.readReg b).toNat) % 65536 ∧
      (∀ r, r ≠ d → t.readReg r = s.readReg r) ∧ (∀ y, t.word y = s.word y) ∧
      t.pc = s.pc + 1#16 ∧ t.runState = .running

/-- ADDI (R122): the immediate is the unsigned 4-bit field, and a source literal is packed by its low 4 bits. -/
def Obligations.AddiAddsUnsignedImmediate : Prop :=
  ∀ d a k : Field,
    decode (BitVec.ofNat 16 (0x4000 + d.toNat * 0x100 + a.toNat * 0x10 + k.toNat)) = .ok (.addi d a k) ∧
    (∀ literal : Int, literal % 16 = k.toNat → packWord 0x4 d.toNat a.toNat literal =
      BitVec.ofNat 16 (0x4000 + d.toNat * 0x100 + a.toNat * 0x10 + k.toNat)) ∧
    ∀ s : State, ∃ t, exec (.addi d a k) s = .next t ∧
      (t.readReg d).toNat = ((s.readReg a).toNat + k.toNat) % 65536 ∧
      (∀ r, r ≠ d → t.readReg r = s.readReg r) ∧ (∀ y, t.word y = s.word y) ∧
      t.pc = s.pc + 1#16 ∧ t.runState = .running

/-- SUB (R123): minuend `op1`, subtrahend `op2`; the difference as an integer, reduced mod 2^16. -/
def Obligations.SubWritesDifferenceModTwoPow16 : Prop :=
  ∀ d a b : Field,
    decode (BitVec.ofNat 16 (0x5000 + d.toNat * 0x100 + a.toNat * 0x10 + b.toNat)) = .ok (.sub d a b) ∧
    ∀ s : State, ∃ t, exec (.sub d a b) s = .next t ∧
      ((t.readReg d).toNat : Int) = (((s.readReg a).toNat : Int) - (s.readReg b).toNat) % 65536 ∧
      (∀ r, r ≠ d → t.readReg r = s.readReg r) ∧ (∀ y, t.word y = s.word y) ∧
      t.pc = s.pc + 1#16 ∧ t.runState = .running

/-- SUBI (R124): the immediate and a source literal as for ADDI. -/
def Obligations.SubiSubtractsUnsignedImmediate : Prop :=
  ∀ d a k : Field,
    decode (BitVec.ofNat 16 (0x6000 + d.toNat * 0x100 + a.toNat * 0x10 + k.toNat)) = .ok (.subi d a k) ∧
    (∀ literal : Int, literal % 16 = k.toNat → packWord 0x6 d.toNat a.toNat literal =
      BitVec.ofNat 16 (0x6000 + d.toNat * 0x100 + a.toNat * 0x10 + k.toNat)) ∧
    ∀ s : State, ∃ t, exec (.subi d a k) s = .next t ∧
      ((t.readReg d).toNat : Int) = (((s.readReg a).toNat : Int) - k.toNat) % 65536 ∧
      (∀ r, r ≠ d → t.readReg r = s.readReg r) ∧ (∀ y, t.word y = s.word y) ∧
      t.pc = s.pc + 1#16 ∧ t.runState = .running

/-- CMP (R130): unsigned and strict, the whole destination written; then JG on that register jumps when `a < b` and
JL when `a >= b` (R144). -/
def Obligations.CmpWritesUnsignedLess : Prop :=
  ∀ d a b : Field,
    decode (BitVec.ofNat 16 (0x7000 + d.toNat * 0x100 + a.toNat * 0x10 + b.toNat)) = .ok (.cmp d a b) ∧
    ∀ s : State, ∃ t, exec (.cmp d a b) s = .next t ∧
      (t.readReg d).toNat = (if (s.readReg a).toNat < (s.readReg b).toNat then 1 else 0) ∧
      (∀ r, r ≠ d → t.readReg r = s.readReg r) ∧ (∀ y, t.word y = s.word y) ∧
      t.pc = s.pc + 1#16 ∧ t.runState = .running ∧
      (∀ l, exec (.jg l d) t = .next (if (s.readReg a).toNat < (s.readReg b).toNat then t.jump l else t.advance)) ∧
      (∀ l, exec (.jl l d) t = .next (if (s.readReg b).toNat ≤ (s.readReg a).toNat then t.jump l else t.advance))

/-- JMP (R141): to the slot, whatever `op1` and `op2` hold; a label address is packed by its low 4 bits. -/
def Obligations.JmpGoesToItsSlot : Prop :=
  ∀ l x y : Field,
    decode (BitVec.ofNat 16 (0x8000 + l.toNat * 0x100 + x.toNat * 0x10 + y.toNat)) = .ok (.jmp l) ∧
    (∀ address : Nat, address % 16 = l.toNat →
      packWord 0x8 address 0 0 = BitVec.ofNat 16 (0x8000 + l.toNat * 0x100)) ∧
    ∀ s : State, ∃ t, exec (.jmp l) s = .next t ∧ t.pc.toNat = 512 + l.toNat ∧ t.runState = .running ∧
      (∀ r, t.readReg r = s.readReg r) ∧ (∀ z, t.word z = s.word z) ∧
      (s.executes → ∀ oob, outcomeOf oob s t = .continued)

/-- JG (R142, decisions D14 and D25): taken exactly when the register is non-zero, unsigned. -/
def Obligations.JgTakenIffRegisterNonZero : Prop :=
  ∀ l a x : Field,
    decode (BitVec.ofNat 16 (0x9000 + l.toNat * 0x100 + a.toNat * 0x10 + x.toNat)) = .ok (.jg l a) ∧
    ∀ s : State, ∃ t, exec (.jg l a) s = .next t ∧
      (0 < (s.readReg a).toNat → t.pc.toNat = 512 + l.toNat) ∧
      ((s.readReg a).toNat = 0 → t.pc = s.pc + 1#16) ∧
      (∀ r, t.readReg r = s.readReg r) ∧ (∀ z, t.word z = s.word z) ∧ t.runState = .running

/-- JL (R143): taken exactly when the register is zero, the complement of JG on the same register. -/
def Obligations.JlTakenIffRegisterZero : Prop :=
  ∀ l a x : Field,
    decode (BitVec.ofNat 16 (0xA000 + l.toNat * 0x100 + a.toNat * 0x10 + x.toNat)) = .ok (.jl l a) ∧
    ∀ s : State, ∃ t, exec (.jl l a) s = .next t ∧
      ((s.readReg a).toNat = 0 → t.pc.toNat = 512 + l.toNat) ∧
      ((s.readReg a).toNat ≠ 0 → t.pc = s.pc + 1#16) ∧
      (∀ r, t.readReg r = s.readReg r) ∧ (∀ z, t.word z = s.word z) ∧ t.runState = .running ∧
      ((s.readReg a).toNat = 0 → exec (.jg l a) s = .next s.advance ∧ t = s.jump l) ∧
      ((s.readReg a).toNat ≠ 0 → exec (.jg l a) s = .next (s.jump l) ∧ t = s.advance)

/-- MOV (R131): all 16 bits copied, whatever `op2` holds; `MOV Rd, Rd` changes no register. -/
def Obligations.MovCopiesARegister : Prop :=
  ∀ d a x : Field,
    decode (BitVec.ofNat 16 (0xC000 + d.toNat * 0x100 + a.toNat * 0x10 + x.toNat)) = .ok (.mov d a) ∧
    encode (.mov d a) = BitVec.ofNat 16 (0xC000 + d.toNat * 0x100 + a.toNat * 0x10) ∧
    ∀ s : State, ∃ t, exec (.mov d a) s = .next t ∧
      t.readReg d = s.readReg a ∧ t.readReg a = s.readReg a ∧
      (∀ r, r ≠ d → t.readReg r = s.readReg r) ∧ (∀ y, t.word y = s.word y) ∧
      t.pc = s.pc + 1#16 ∧ t.runState = .running

/-- HALT (R151): every word `0xF000` to `0xFFFF`; Halted, `pc` and all else kept, outcome Halted; every further step
is a no-op that reports Halted again, and only reset or `load_program` leaves Halted. -/
def Obligations.HaltIsTerminal : Prop :=
  (∀ w : Word, 0xF000 ≤ w.toNat → decode w = .ok .halt) ∧ encode .halt = 0xF000#16 ∧
  ∀ s : State, ∃ t, exec .halt s = .next t ∧ t.runState = .halted ∧ t.pc = s.pc ∧
    (∀ r, t.readReg r = s.readReg r) ∧ (∀ y, t.word y = s.word y) ∧
    (s.executes → ∀ oob, outcomeOf oob s t = .halted) ∧
    drive t .step = .next (t, .stepped .halted) ∧
    (∀ (m : HostMove) (u : State) (reply : HostReply), drive t m = .next (u, reply) → u.runState ≠ .halted →
      m = .reset ∨ ∃ words, m = .load words)

/-- LW and SW at an address of 1024 or more (R32, R110, R111, R163; decisions D7 and D12): the core is Faulted with
the address and the `pc`, and registers, memory and `pc` are unchanged. -/
def Obligations.DataFaultIsPrecise : Prop :=
  ∀ (s : State) (d a : RegIdx) (i : Instr), (i = .lw d a ∨ i = .sw d a) → 1024 ≤ (s.readReg a).toNat →
    ∃ t, exec i s = .next t ∧
      t.runState = .faulted (.dataAddressOutOfRange (s.readReg a) s.pc) ∧
      t.pc = s.pc ∧ (∀ r, t.readReg r = s.readReg r) ∧ (∀ y, t.word y = s.word y)

/-- A non-zero word with opcode field 0, 11, 13 or 14 (R152; decisions D12 and D13): the step faults with the word
and its address, and registers, memory and `pc` are unchanged. -/
def Obligations.UnassignedOpcodeFaults : Prop :=
  ∀ s : State, s.executes → s.current ≠ 0#16 → s.current.toNat / 4096 ∈ [0x0, 0xB, 0xD, 0xE] →
    ∃ t, step s = .next t ∧ t.runState = .faulted (.unknownOpcode s.current s.pc) ∧
      t.pc = s.pc ∧ (∀ r, t.readReg r = s.readReg r) ∧ (∀ y, t.word y = s.word y)

/-! Encoding and decoding. -/

/-- Words of the spec's own examples and test vectors (95_test_vectors.md S1, S4, V1 to V6) decode to the
instructions they stand for, and an illegal one is rejected. -/
def Obligations.ExampleWordsDecode : Prop :=
  decode 0x1310#16 = .ok (.lw 3 1) ∧ decode 0x2210#16 = .ok (.sw 2 1) ∧
  decode 0x3ABC#16 = .ok (.add 10 11 12) ∧ decode 0x4105#16 = .ok (.addi 1 0 5) ∧
  decode 0x5634#16 = .ok (.sub 6 3 4) ∧ decode 0x611F#16 = .ok (.subi 1 1 15) ∧
  decode 0x7534#16 = .ok (.cmp 5 3 4) ∧ decode 0x8FAB#16 = .ok (.jmp 15) ∧
  decode 0x9210#16 = .ok (.jg 2 1) ∧ decode 0xA850#16 = .ok (.jl 8 5) ∧
  decode 0xC12F#16 = .ok (.mov 1 2) ∧ decode 0xFABC#16 = .ok .halt ∧
  decode 0x0000#16 = .ok .nop ∧ decode 0xB000#16 = .error (.unassignedOpcode 0xB000#16)

/-- Decoding the encoding of any instruction gives it back (R53, R60). -/
def Obligations.DecodeOfEncode : Prop :=
  ∀ i : Instr, decode (encode i) = .ok i

/-- Encoding what a word decodes to gives the word with its ignored fields cleared (R55, R60). -/
def Obligations.EncodeOfDecodeClearsIgnoredFields : Prop :=
  ∀ (w : Word) (i : Instr), decode w = .ok i → encode i = w &&& i.mnemonic.usedBits

/-- Ignored fields never matter (R55, decision D14): words alike in the bits a row uses decode alike. -/
def Obligations.IgnoredFieldsNeverMatter : Prop :=
  ∀ (w v : Word) (i : Instr), decode w = .ok i → v &&& i.mnemonic.usedBits = w &&& i.mnemonic.usedBits →
    decode v = .ok i

/-- The partition of all words (R59, decision D13): NOP, the ranges of the twelve other instructions by their
leading digit, and the illegal ranges. -/
def Obligations.WordPartition : Prop :=
  ∀ w : Word,
    (w.toNat = 0 → decode w = .ok .nop) ∧
    (0x0001 ≤ w.toNat ∧ w.toNat ≤ 0x0FFF → decode w = .error (.unassignedOpcode w)) ∧
    (0x1000 ≤ w.toNat ∧ w.toNat ≤ 0xAFFF → ∃ i, decode w = .ok i ∧
      [.lw, .sw, .add, .addi, .sub, .subi, .cmp, .jmp, .jg, .jl][w.toNat / 0x1000 - 1]? = some i.mnemonic) ∧
    (0xB000 ≤ w.toNat ∧ w.toNat ≤ 0xBFFF → decode w = .error (.unassignedOpcode w)) ∧
    (0xC000 ≤ w.toNat ∧ w.toNat ≤ 0xCFFF → ∃ i, decode w = .ok i ∧ i.mnemonic = .mov) ∧
    (0xD000 ≤ w.toNat ∧ w.toNat ≤ 0xEFFF → decode w = .error (.unassignedOpcode w)) ∧
    (0xF000 ≤ w.toNat → decode w = .ok .halt)

/-- Packing (R60): every value masked to its low 4 bits, whatever its size or sign. -/
def Obligations.PackingMasksEachField : Prop :=
  ∀ opc f0 f1 f2 : Int, ((packWord opc f0 f1 f2).toNat : Int) =
    (opc % 16) * 4096 + (f0 % 16) * 256 + (f1 % 16) * 16 + f2 % 16

/-! The step. -/

/-- A core that executes runs the instruction its fetched word decodes to, and the step is that and nothing more
(R90, clauses S4 to S7). -/
def Obligations.StepRunsTheDecodedInstruction : Prop :=
  ∀ (s : State) (i : Instr), s.runState.live = true → s.pc.toNat < 1024 →
    decode (s.word s.pc.toNat) = .ok i → step s = exec i s

/-- The word placed by withFetchWord is the one the very next step runs, in every state (log entry 9). -/
def Obligations.PlacedWordIsRunNext : Prop :=
  ∀ (s : State) (w : Nat) (i : Instr), decodeTableWord 16 w = some i →
    step (s.withFetchWord 16 w) = exec i (s.withFetchWord 16 w)

/-- Every step of every state answers a next state, at either value of `OOB_IS_FAULT`: nothing stops the machine
outside its states (R90, R163; log entry 6). -/
def Obligations.EveryStepAnswersANextState : Prop :=
  ∀ (oob : Bool) (s : State), (∃ t, stepWith oob s = .next t) ∧ ∃ t, step s = .next t

/-- A core past the end of memory (R91, R92; decision D6): the step changes nothing and reports PcOutOfBounds; with
`OOB_IS_FAULT` it faults with the `pc` and changes nothing else. That a READY core stays Ready here is the model's
choice of R90 and R92 over R18 (log entry 8); no state that meets the invariant shows it. -/
def Obligations.PastTheEndIsASoftStop : Prop :=
  ∀ s : State, s.runState.live = true → 1024 ≤ s.pc.toNat →
    drive s .step = .next (s, .stepped .pcOutOfBounds) ∧
    ∃ t, stepWith true s = .next t ∧ t.runState = .faulted (.pcOutOfBounds s.pc) ∧
      outcomeOf true s t = .faulted (.pcOutOfBounds s.pc) ∧
      t.pc = s.pc ∧ (∀ r, t.readReg r = s.readReg r) ∧ ∀ y, t.word y = s.word y

/-- A Halted or Faulted core is frozen and reports the same again (R96, R97; decisions D8 and D9). -/
def Obligations.TerminalCoreIsFrozen : Prop :=
  ∀ (oob : Bool) (s : State),
    (s.runState = .halted → stepWith oob s = .next s ∧ outcomeOf oob s s = .halted) ∧
    (∀ r, s.runState = .faulted r → stepWith oob s = .next s ∧ outcomeOf oob s s = .faulted r)

/-- The whole transition table of `run_state` under a step (R94; decisions D6 and D7; that a Ready core past the end
stays Ready is the model's choice of R90 and R92 over R18, log entry 8). -/
def Obligations.RunStateTransitions : Prop :=
  ∀ (oob : Bool) (s t : State), stepWith oob s = .next t →
    (t.runState = .halted ↔ s.runState = .halted ∨ (s.executes ∧ decode s.current = .ok .halt)) ∧
    ((∃ r, t.runState = .faulted r) ↔
      (∃ r, s.runState = .faulted r) ∨
      (s.runState.live = true ∧ 1024 ≤ s.pc.toNat ∧ oob = true) ∨
      (s.executes ∧ ∃ e, decode s.current = .error e) ∨
      (s.executes ∧ ∃ d a, (decode s.current = .ok (.lw d a) ∨ decode s.current = .ok (.sw d a)) ∧
        1024 ≤ (s.readReg a).toNat)) ∧
    (t.runState = .ready → s.runState = .ready ∧ 1024 ≤ s.pc.toNat ∧ t = s) ∧
    (s.executes → t.runState ≠ .ready)

/-- What a step does to `pc`, as the table of R14 has it (decision D7), on integers: it never wraps (R15). -/
def Obligations.PcChangesByTheTable : Prop :=
  ∀ s t : State, step s = .next t →
    (¬ s.executes → t.pc = s.pc) ∧
    (s.executes → ∀ e, decode s.current = .error e → t.pc = s.pc) ∧
    (s.executes → ∀ i, decode s.current = .ok i →
      t.pc.toNat = match i with
        | .halt => s.pc.toNat
        | .jmp l => 512 + l.toNat
        | .jg l a => if (s.readReg a).toNat = 0 then s.pc.toNat + 1 else 512 + l.toNat
        | .jl l a => if (s.readReg a).toNat = 0 then 512 + l.toNat else s.pc.toNat + 1
        | .lw _ a | .sw _ a => if (s.readReg a).toNat < 1024 then s.pc.toNat + 1 else s.pc.toNat
        | .nop | .add _ _ _ | .addi _ _ _ | .sub _ _ _ | .subi _ _ _ | .cmp _ _ _ | .mov _ _ => s.pc.toNat + 1)

/-- A step changes at most one register or one memory word, never both, and neither unless the core goes on Running
(R93). The register is the destination of the decoded instruction, the word the one at the effective address of the
decoded SW. -/
def Obligations.StepChangesAtMostOneLocation : Prop :=
  ∀ (oob : Bool) (s t : State), stepWith oob s = .next t →
    ((∀ r, t.readReg r = s.readReg r) ∧ (∀ y, t.word y = s.word y)) ∨
    (s.executes ∧ t.runState = .running ∧ (∀ y, t.word y = s.word y) ∧
      ∃ i d, decode s.current = .ok i ∧ i.destReg = some d ∧ ∀ r, r ≠ d → t.readReg r = s.readReg r) ∨
    (s.executes ∧ t.runState = .running ∧ (∀ r, t.readReg r = s.readReg r) ∧
      ∃ d a, decode s.current = .ok (.sw d a) ∧ (s.effectiveAddress a).toNat < 1024 ∧
        ∀ y, y ≠ (s.effectiveAddress a).toNat → t.word y = s.word y)

/-- Only SW writes memory, only the word it names, and only with its register's value (R21, R111). -/
def Obligations.OnlySwChangesMemory : Prop :=
  ∀ (s t : State) (y : Nat), step s = .next t → t.word y ≠ s.word y →
    s.executes ∧ y < 1024 ∧ ∃ d a, decode s.current = .ok (.sw d a) ∧
      (s.readReg a).toNat = y ∧ t.word y = s.readReg d

/-- A register changes only as the destination of an instruction that R11 lists as writing it. -/
def Obligations.OnlyTheDestinationRegisterChanges : Prop :=
  ∀ (s t : State) (r : RegIdx), step s = .next t → t.readReg r ≠ s.readReg r →
    s.executes ∧ t.runState = .running ∧ ∃ i, decode s.current = .ok i ∧ i.destReg = some r

/-- An instruction depends on no register but those R11 lists as read: two states alike but for the other registers
go on alike, and the destination of an instruction that completes gets the same value. -/
def Obligations.OnlyListedRegistersAreRead : Prop :=
  ∀ (i : Instr) (s s' t t' : State), s'.pc = s.pc → s'.mem = s.mem → s'.runState = s.runState →
    (∀ r ∈ i.readRegs, s'.readReg r = s.readReg r) → exec i s = .next t → exec i s' = .next t' →
    t'.pc = t.pc ∧ t'.mem = t.mem ∧ t'.runState = t.runState ∧
      (t.runState = .running → ∀ d, i.destReg = some d → t'.readReg d = t.readReg d)

/-- A step does the same from Ready and from Running (R18). -/
def Obligations.ReadyAndRunningStepAlike : Prop :=
  ∀ (oob : Bool) (s : State), s.pc.toNat < 1024 →
    stepWith oob { s with runState := .ready } = stepWith oob { s with runState := .running }

/-- A store is seen by the next fetch (R42, decision D24): a SW to the word after it replaces the instruction the
next step runs. -/
def Obligations.NextFetchSeesTheStore : Prop :=
  ∀ (s : State) (d a : RegIdx), s.executes → decode s.current = .ok (.sw d a) →
    (s.readReg a).toNat = s.pc.toNat + 1 → s.pc.toNat + 1 < 1024 →
    ∃ t, step s = .next t ∧ t.current = s.readReg d ∧
      ∀ i, decode (s.readReg d) = .ok i → step t = exec i t

/-- The report of a step (R95; the soft stop is decision D6): exactly one, and when each. -/
def Obligations.ReportsMatchTheStep : Prop :=
  ∀ s : State, ∃ t o, step s = .next t ∧ drive s .step = .next (t, .stepped o) ∧
    (o = .continued ↔ s.executes ∧ t.runState = .running) ∧
    (o = .halted ↔ t.runState = .halted) ∧
    (∀ r, o = .faulted r ↔ t.runState = .faulted r) ∧
    (o = .pcOutOfBounds ↔ s.runState.live = true ∧ 1024 ≤ s.pc.toNat)

/-- The end of a run (R101): after a report of Halted, Faulted or PcOutOfBounds no further step changes the state,
however many there are, and each reports the same. -/
def Obligations.RunEndIsFinal : Prop :=
  ∀ (s t : State) (o : StepOutcome), drive s .step = .next (t, .stepped o) → o.ended = true →
    drive t .step = .next (t, .stepped o) ∧ ∀ k, core.run k t = .next t

/-- Zero words are walked one a step up to the end of memory (R150, R91): `k` steps over zero words advance `pc` by
`k` and change nothing else but `run_state`. -/
def Obligations.ZeroWordsAreWalkedAsNops : Prop :=
  ∀ (k : Nat) (s : State), s.runState.live = true → s.pc.toNat + k ≤ 1024 →
    (∀ y, s.pc.toNat ≤ y → y < 1024 → s.word y = 0#16) →
    ∃ t : State, core.run k s = .next t ∧ t.pc.toNat = s.pc.toNat + k ∧
      (∀ r, t.readReg r = s.readReg r) ∧ t.mem = s.mem ∧ (0 < k → t.runState = .running)

/-- The six blocks compute the step (R61, R80, R81; decision D15), for any values of the signals the table leaves
unused. -/
def Obligations.BlocksComputeTheStep : Prop :=
  ∀ (x : DontCare) (oob : Bool) (s : State), stepWith oob s = .next (datapathStep x oob s)

/-! The invariant, reset and the host. -/

/-- Every step keeps the invariant. -/
def Obligations.StepKeepsInv : Prop :=
  ∀ s t : State, s.Inv → step s = .next t → t.Inv

/-- The state after reset meets the invariant. -/
def Obligations.ResetMeetsInv : Prop := State.reset.Inv

/-- Every state that the host can bring the machine to, by resets, loads and steps in any order, meets the
invariant. -/
def Obligations.ReachableStatesMeetInv : Prop :=
  ∀ s : State, Reachable s → s.Inv

/-- Reset (R24, R180; `pc` is decision D3 and memory decision D2): from any state, registers 0, `pc` 512, every word
0, Ready. -/
def Obligations.ResetGivesTheResetState : Prop :=
  ∀ s : State, ∃ t, drive s .reset = .next (t, .resetDone) ∧
    (∀ r, t.readReg r = 0#16) ∧ t.pc.toNat = 512 ∧ t.runState = .ready ∧ ∀ y, y < 1024 → t.word y = 0#16

/-- Reset with `INIT_MEM` an argument (R5, R180; decision D2): memory is the image, in canonical form, and all else
is as after reset. -/
def Obligations.ResetTakesAnyInitialMemory : Prop :=
  ∀ image : Nat → Word,
    (∀ y, y < 1024 → (resetWith image).word y = image y) ∧ (resetWith image).mem.wf = true ∧
    (resetWith image).regs = State.reset.regs ∧ (resetWith image).pc = State.reset.pc ∧
    (resetWith image).runState = State.reset.runState

/-- `load_program` of at most 512 words (R183; decisions D10 and D23): the words from 512 on, `pc` 512, Ready from
any state, registers and every other word kept; the loaded state meets the invariant if memory is canonical. -/
def Obligations.LoadProgramEffect : Prop :=
  ∀ (s : State) (words : List Word), words.length ≤ 512 → ∃ t, drive s (.load words) = .next (t, .loaded) ∧
    t.pc.toNat = 512 ∧ t.runState = .ready ∧ (∀ r, t.readReg r = s.readReg r) ∧
    (∀ i, i < words.length → some (t.word (512 + i)) = words[i]?) ∧
    (∀ y, y < 512 ∨ 512 + words.length ≤ y → t.word y = s.word y) ∧
    (s.mem.wf = true → t.Inv)

/-- A program of more than 512 words is refused and nothing changes (R184; decision D11). -/
def Obligations.OversizeLoadIsRefused : Prop :=
  ∀ (s : State) (words : List Word), 512 < words.length →
    drive s (.load words) = .next (s, .loadRefused .tooLong)

/-- The snapshot shows every register and all 1024 words (R99; `pc` and `run_state` by decision D17). -/
def Obligations.SnapshotShowsAllState : Prop :=
  ∀ s : State, s.snapshot.mem.length = 1024 ∧ (∀ y, y < 1024 → s.snapshot.mem[y]? = some (s.word y)) ∧
    (∀ r : RegIdx, s.snapshot.regs[r.toNat] = s.readReg r) ∧
    s.snapshot.pc = s.pc ∧ s.snapshot.runState = s.runState

/-! The assembler (30_encoding.md section 7). -/

/-- One word per source line that is not blank, in source order (R64, R66, R69): the word in a label's slot is
`0x0000`, and the word in a statement's slot is the one that statement encodes to, its labels standing for the slots
that declare them, and only those. -/
def Obligations.OneWordPerLineAndLabel : Prop :=
  ∀ (lines : List SourceLine) (words : List Word), assembleLines lines = .ok words →
    words.length = (slotLines lines).length ∧
    (∀ (i : Nat) (name : List Char), (slotLines lines)[i]? = some (.labelDecl name) → words[i]? = some 0x0000#16) ∧
    ∃ table : LabelTable,
      (∀ name slot, table.lookup name = some slot ↔ (slotLines lines)[slot]? = some (.labelDecl name)) ∧
      ∀ (i : Nat) (command : List Char) (ops : List Operand),
        (slotLines lines)[i]? = some (.statement command ops) →
        ∀ line, ∃ w, encodeStatement table line command ops = .ok w ∧ words[i]? = some w

/-- A jump to a label, JMP, JG or JL, goes to the slot of the label's placeholder, its slot number masked to 4 bits,
wherever the label is declared; JG and JL test the register that follows it (R65, R66, R68). -/
def Obligations.JumpTargetsTheLabelSlot : Prop :=
  ∀ (lines : List SourceLine) (words : List Word) (i j n : Nat) (name : List Char),
    assembleLines lines = .ok words → (slotLines lines)[i]? = some (.labelDecl name) →
    ((slotLines lines)[j]? = some (.statement "JMP".toList [.label name]) →
      words[j]? = some (BitVec.ofNat 16 (0x8000 + (i % 16) * 0x100))) ∧
    ((slotLines lines)[j]? = some (.statement "JG".toList [.label name, .reg n]) →
      words[j]? = some (BitVec.ofNat 16 (0x9000 + (i % 16) * 0x100 + (n % 16) * 0x10))) ∧
    ((slotLines lines)[j]? = some (.statement "JL".toList [.label name, .reg n]) →
      words[j]? = some (BitVec.ofNat 16 (0xA000 + (i % 16) * 0x100 + (n % 16) * 0x10)))

/-- Every word the assembler makes is a legal instruction word (R59, R152), whatever the source text. -/
def Obligations.AssembledWordsAreLegal : Prop :=
  ∀ (text : List Char) (words : List Word), assembleChars text = .ok words → ∀ w ∈ words, w.legal = true

/-- The operand table (R66; ADD and SUB by decision D19): each command's operands go to the fields in source order,
so that the word is the one the instruction encodes to. Only the jumps need a label, one that the table holds. -/
def Obligations.StatementsEncodeTheirInstruction : Prop :=
  ∀ (table : LabelTable) (line n0 n1 n2 : Nat) (v : Int),
    let r (n : Nat) : Operand := .reg n
    let f (n : Nat) : Field := BitVec.ofNat 4 n
    let asm (command : String) (ops : List Operand) := encodeStatement table line command.toList ops
    asm "ADD" [r n0, r n1, r n2] = .ok (encode (.add (f n0) (f n1) (f n2))) ∧
    asm "SUB" [r n0, r n1, r n2] = .ok (encode (.sub (f n0) (f n1) (f n2))) ∧
    asm "CMP" [r n0, r n1, r n2] = .ok (encode (.cmp (f n0) (f n1) (f n2))) ∧
    asm "ADDI" [r n0, r n1, .imm v] = .ok (encode (.addi (f n0) (f n1) (BitVec.ofInt 4 v))) ∧
    asm "SUBI" [r n0, r n1, .imm v] = .ok (encode (.subi (f n0) (f n1) (BitVec.ofInt 4 v))) ∧
    asm "MOV" [r n0, r n1] = .ok (encode (.mov (f n0) (f n1))) ∧
    asm "LW" [r n0, r n1] = .ok (encode (.lw (f n0) (f n1))) ∧
    asm "SW" [r n0, r n1] = .ok (encode (.sw (f n0) (f n1))) ∧
    asm "HALT" [] = .ok (encode .halt) ∧ asm "NOP" [] = .ok (encode .nop) ∧
    ∀ (name : List Char) (slot : Nat), table.lookup name = some slot →
      asm "JMP" [.label name] = .ok (encode (.jmp (f slot))) ∧
      asm "JG" [.label name, r n1] = .ok (encode (.jg (f slot) (f n1))) ∧
      asm "JL" [.label name, r n1] = .ok (encode (.jl (f slot) (f n1)))

/-- A source with a duplicate label, with a JMP, JG or JL to a label it never declares (whatever operands follow it),
or with a CMPI line does not assemble (R70, R71). -/
def Obligations.BadSourceNeverAssembles : Prop :=
  (∀ (before between after : List SourceLine) (name : List Char), ∃ e,
    assembleLines (before ++ .labelDecl name :: between ++ .labelDecl name :: after) = .error e) ∧
  (∀ (lines : List SourceLine) (command name : List Char) (rest : List Operand),
    command ∈ ["JMP".toList, "JG".toList, "JL".toList] → .statement command (.label name :: rest) ∈ lines →
    .labelDecl name ∉ lines → ∃ e, assembleLines lines = .error e) ∧
  (∀ (lines : List SourceLine) (ops : List Operand), .statement "CMPI".toList ops ∈ lines →
    ∃ e, assembleLines lines = .error e)
end

