-- ==== Sys2Proof/Laws/Decode.lean ====
section
/-! SUPPORT. The fields of a packed word, and the decoder's verdict read back as an instruction. -/

namespace Sys2Proof

section Fields
variable (o d a b : Field)

@[simp] theorem opcodeOf_fieldsToWord : opcodeOf (fieldsToWord o d a b) = o := by
  apply BitVec.eq_of_getElem_eq
  intro i hi
  simp [opcodeOf, fieldsToWord]
  grind

@[simp] theorem destOf_fieldsToWord : destOf (fieldsToWord o d a b) = d := by
  apply BitVec.eq_of_getElem_eq
  intro i hi
  simp [destOf, fieldsToWord]
  grind

@[simp] theorem op1Of_fieldsToWord : op1Of (fieldsToWord o d a b) = a := by
  apply BitVec.eq_of_getElem_eq
  intro i hi
  simp [op1Of, fieldsToWord]
  grind

@[simp] theorem op2Of_fieldsToWord : op2Of (fieldsToWord o d a b) = b := by
  apply BitVec.eq_of_getElem_eq
  intro i hi
  simp [op2Of, fieldsToWord]
  grind

end Fields

/-- A word is its four fields (R50). -/
theorem fieldsToWord_of_word (w : Word) : fieldsToWord (opcodeOf w) (destOf w) (op1Of w) (op2Of w) = w := by
  apply BitVec.eq_of_getElem_eq
  intro i hi
  simp [opcodeOf, destOf, op1Of, op2Of, fieldsToWord]
  grind

/-- The value of a packed word, field by field (R60). -/
theorem fieldsToWord_toNat (o d a b : Field) :
    (fieldsToWord o d a b).toNat = o.toNat * 4096 + d.toNat * 256 + a.toNat * 16 + b.toNat := by
  have hd : d.toNat < 16 := d.isLt
  have ha : a.toNat < 16 := a.isLt
  have hb : b.toNat < 16 := b.isLt
  simp only [fieldsToWord, BitVec.toNat_append]
  rw [← Nat.shiftLeft_add_eq_or_of_lt hb, ← Nat.shiftLeft_add_eq_or_of_lt ha,
    ← Nat.shiftLeft_add_eq_or_of_lt hd]
  simp only [Nat.shiftLeft_eq]
  omega

/-- A word written as a numeral `0xodab` is its four fields (R50, R60). -/
theorem ofNat_fields (o d a b : Field) :
    BitVec.ofNat 16 (o.toNat * 4096 + d.toNat * 256 + a.toNat * 16 + b.toNat) = fieldsToWord o d a b := by
  rw [← fieldsToWord_toNat]; simp

/-- Decoding answers the instruction that the decoder's kind and the fields make. -/
theorem decode_ok_iff (w : Word) (i : Instr) : decode w = .ok i ↔ ∃ m, kindOf w = .known m ∧ i = instrOf m w := by
  unfold decode
  cases h : kindOf w with
  | known m => simp [eq_comm]
  | illegal => simp

@[simp] theorem instrOf_mnemonic (m : Mnemonic) (w : Word) : (instrOf m w).mnemonic = m := by cases m <;> rfl

end Sys2Proof
end

