-- ==== Sys2Proof/Laws/Assembler.lean ====
section
/-! SUPPORT. Facts of the assembler that its statements rest on: the 13 commands are found in the opcode table, CMPI
is not, a packed word is its masked fields, and what each pass answers (30_encoding.md R60, R64, R66, R71). -/

namespace Sys2Proof.Machine

@[simp] theorem lookup_NOP : lookupMnemonic ['N', 'O', 'P'] = some .nop := by decide
@[simp] theorem lookup_LW : lookupMnemonic ['L', 'W'] = some .lw := by decide
@[simp] theorem lookup_SW : lookupMnemonic ['S', 'W'] = some .sw := by decide
@[simp] theorem lookup_ADD : lookupMnemonic ['A', 'D', 'D'] = some .add := by decide
@[simp] theorem lookup_ADDI : lookupMnemonic ['A', 'D', 'D', 'I'] = some .addi := by decide
@[simp] theorem lookup_SUB : lookupMnemonic ['S', 'U', 'B'] = some .sub := by decide
@[simp] theorem lookup_SUBI : lookupMnemonic ['S', 'U', 'B', 'I'] = some .subi := by decide
@[simp] theorem lookup_CMP : lookupMnemonic ['C', 'M', 'P'] = some .cmp := by decide
@[simp] theorem lookup_JMP : lookupMnemonic ['J', 'M', 'P'] = some .jmp := by decide
@[simp] theorem lookup_JG : lookupMnemonic ['J', 'G'] = some .jg := by decide
@[simp] theorem lookup_JL : lookupMnemonic ['J', 'L'] = some .jl := by decide
@[simp] theorem lookup_MOV : lookupMnemonic ['M', 'O', 'V'] = some .mov := by decide
@[simp] theorem lookup_HALT : lookupMnemonic ['H', 'A', 'L', 'T'] = some .halt := by decide

/-- There is no CMPI (R71, R125). -/
@[simp] theorem lookup_CMPI : lookupMnemonic ['C', 'M', 'P', 'I'] = none := by decide

/-- A packed word, each value masked to 4 bits in its place (R60). -/
theorem packWord_toNat (o a b c : Int) : (packWord o a b c).toNat =
    (BitVec.ofInt 4 o).toNat * 4096 + (BitVec.ofInt 4 a).toNat * 256 + (BitVec.ofInt 4 b).toNat * 16 +
      (BitVec.ofInt 4 c).toNat :=
  fieldsToWord_toNat _ _ _ _

@[simp] theorem slotLines_blank (ls : List SourceLine) : slotLines (.blank :: ls) = slotLines ls := rfl
@[simp] theorem slotLines_labelDecl (name : List Char) (ls : List SourceLine) :
    slotLines (.labelDecl name :: ls) = .labelDecl name :: slotLines ls := rfl
@[simp] theorem slotLines_statement (c : List Char) (ops : List Operand) (ls : List SourceLine) :
    slotLines (.statement c ops :: ls) = .statement c ops :: slotLines ls := rfl

/-- The slots from `slot` on, the first line's and the others'. -/
theorem exists_slot_cons {x y : SourceLine} {ls : List SourceLine} {slot v : Nat} :
    (∃ k, v = slot + k ∧ (x :: ls)[k]? = some y) ↔
      (v = slot ∧ x = y) ∨ ∃ k, v = slot + 1 + k ∧ ls[k]? = some y := by
  constructor
  · rintro ⟨k, hv, hk⟩
    cases k with
    | zero => exact .inl ⟨hv, by simpa using hk⟩
    | succ k => exact .inr ⟨k, by omega, by simpa using hk⟩
  · rintro (⟨rfl, rfl⟩ | ⟨k, hv, hk⟩)
    · exact ⟨0, rfl, rfl⟩
    · exact ⟨k + 1, by omega, by simpa using hk⟩

/-- What pass 1 answers (R64), from the table `table` and the slot `slot` on: a record for each line that takes a
slot, and a table that adds exactly the labels of the lines, each new and at its slot. -/
structure Collected (table : LabelTable) (slot : Nat) (lines : List SourceLine) (table' : LabelTable)
    (records : List Record) : Prop where
  length : records.length = (slotLines lines).length
  placeholder : ∀ (k : Nat) (name : List Char), (slotLines lines)[k]? = some (.labelDecl name) →
    records[k]? = some .placeholder
  statement : ∀ (k : Nat) (c : List Char) (ops : List Operand), (slotLines lines)[k]? = some (.statement c ops) →
    ∃ line, records[k]? = some (.statement line c ops)
  lookup : ∀ (name : List Char) (v : Nat), table'.lookup name = some v ↔
    table.lookup name = some v ∨ ∃ k, v = slot + k ∧ (slotLines lines)[k]? = some (.labelDecl name)
  fresh : ∀ (name : List Char) (v : Nat), table.lookup name = some v → .labelDecl name ∉ lines

/-- Pass 1 answers what `Collected` says. -/
theorem collect_ok : ∀ (lines : List SourceLine) (table : LabelTable) (line slot : Nat) (table' : LabelTable)
    (records : List Record), collect table line slot lines = .ok (table', records) →
      Collected table slot lines table' records
  | [], table, line, slot, table', records, h => by
    cases h; constructor <;> simp [slotLines]
  | .blank :: rest, table, line, slot, table', records, h => by
    obtain ⟨h1, h2, h3, h4, h5⟩ := collect_ok rest table (line + 1) slot table' records h
    exact ⟨h1, h2, h3, h4, fun n v hv => by simpa using h5 n v hv⟩
  | .labelDecl name :: rest, table, line, slot, table', records, h => by
    simp only [collect] at h
    split at h
    · cases h
    · rename_i hnew
      split at h
      · rename_i hc
        cases h
        obtain ⟨h1, h2, h3, h4, h5⟩ := collect_ok rest _ _ _ _ _ hc
        refine ⟨by simp [h1], fun k n hk => ?_, fun k c ops hk => ?_, fun n v => ?_, fun n v hv => ?_⟩
        · cases k with
          | zero => rfl
          | succ k => simpa using h2 k n (by simpa using hk)
        · cases k with
          | zero => simp at hk
          | succ k => simpa using h3 k c ops (by simpa using hk)
        · rw [h4 n v, slotLines_labelDecl, exists_slot_cons]
          by_cases e : n = name
          · subst e; simp [hnew, eq_comm]
          · simp [List.lookup_cons, beq_false_of_ne e, Ne.symm e]
        · have hne : n ≠ name := fun e => by rw [e, hnew] at hv; cases hv
          simpa [hne] using h5 n v (by simpa [List.lookup_cons, beq_false_of_ne hne] using hv)
      · cases h
  | .statement c ops :: rest, table, line, slot, table', records, h => by
    simp only [collect] at h
    split at h
    · rename_i hc
      cases h
      obtain ⟨h1, h2, h3, h4, h5⟩ := collect_ok rest _ _ _ _ _ hc
      refine ⟨by simp [h1], fun k n hk => ?_, fun k c ops hk => ?_, fun n v => ?_, fun n v hv => ?_⟩
      · cases k with
        | zero => simp at hk
        | succ k => simpa using h2 k n (by simpa using hk)
      · cases k with
        | zero => simp at hk; obtain ⟨rfl, rfl⟩ := hk; exact ⟨_, rfl⟩
        | succ k => simpa using h3 k c ops (by simpa using hk)
      · rw [h4 n v, slotLines_statement, exists_slot_cons]; simp
      · simpa using h5 n v hv
    · cases h

/-- Source lines that assemble have passed both passes (R62). -/
theorem assembleLines_ok {lines : List SourceLine} {words : List Word} (h : assembleLines lines = .ok words) :
    ∃ table records, Collected [] 0 lines table records ∧ encodeRecords table records = .ok words := by
  simp only [assembleLines] at h
  split at h
  · cases h
  · rename_i hc; exact ⟨_, _, collect_ok _ _ _ _ _ _ hc, h⟩

/-- The line number of a statement stands in its errors only. -/
theorem operandValues_ok_line {table : LabelTable} {line : Nat} (line' : Nat) :
    ∀ {ops : List (Role × Operand)} {vs : List Int}, operandValues table line ops = .ok vs →
      operandValues table line' ops = .ok vs
  | [], _, h => h
  | (role, op) :: rest, vs, h => by
    have one : ∀ v, operandValue table line role op = .ok v → operandValue table line' role op = .ok v := by
      intro v hv
      cases role <;> cases op <;> simp only [operandValue] at hv ⊢ <;> try (first | exact hv | cases hv)
      split at hv
      · exact hv
      · cases hv
    simp only [operandValues] at h
    split at h
    · cases h
    · rename_i v hv
      split at h
      · cases h
      · rename_i ws hws
        cases h
        simp only [operandValues, one v hv, operandValues_ok_line line' hws]

/-- The word of a statement does not depend on its line number. -/
theorem encodeStatement_ok_line {table : LabelTable} {line : Nat} {c : List Char} {ops : List Operand} {w : Word}
    (h : encodeStatement table line c ops = .ok w) (line' : Nat) : encodeStatement table line' c ops = .ok w := by
  simp only [encodeStatement] at h ⊢
  split at h
  · cases h
  · split at h
    · rename_i hcount
      split at h
      · rename_i hv
        rw [if_pos hcount, operandValues_ok_line line' hv]; exact h
      · cases h
    · cases h

/-- Pass 2 makes one word a record, each from its own record (R66). -/
theorem encodeRecords_ok (table : LabelTable) : ∀ (records : List Record) (words : List Word),
    encodeRecords table records = .ok words → words.length = records.length ∧
      ∀ (k : Nat) (r : Record), records[k]? = some r → ∃ w, encodeRecord table r = .ok w ∧ words[k]? = some w
  | [], words, h => by cases h; simp
  | r :: rest, words, h => by
    simp only [encodeRecords] at h
    split at h
    · cases h
    · rename_i w hw
      split at h
      · cases h
      · rename_i ws hws
        cases h
        obtain ⟨hlen, hget⟩ := encodeRecords_ok table rest ws hws
        refine ⟨by simp [hlen], fun k r' hk => ?_⟩
        cases k with
        | zero => simp at hk; subst hk; exact ⟨w, hw, rfl⟩
        | succ k => simpa using hget k r' (by simpa using hk)

end Sys2Proof.Machine
end

