-- ==== Sys2Proof/Laws/Memory.lean ====
section
/-! SUPPORT. The laws of memory: a read after a write (20_memory.md R36, R39), and that every memory operation keeps
the canonical form. The read laws hold of every list, in canonical form or not. -/

namespace Sys2Proof.Machine

@[simp] theorem memWords_eq : Config.memWords = 1024 := rfl
@[simp] theorem progOffset_eq : Config.progOffset = 512 := rfl
@[simp] theorem initMem_eq (a : Nat) : Config.initMem a = 0#16 := rfl

namespace Memory

@[simp] theorem read_nil (a : Nat) : Memory.read [] a = 0#16 := rfl

theorem read_cons (k : Nat) (v : Word) (m : Memory) (a : Nat) :
    Memory.read ((k, v) :: m) a = if k = a then v else m.read a := rfl

theorem read_erase_same (m : Memory) (a : Nat) : (m.erase a).read a = 0#16 := by
  induction m with
  | nil => rfl
  | cons c m ih =>
    obtain ⟨k, v⟩ := c
    by_cases h : k = a
    · subst h; simpa [Memory.erase] using ih
    · have : Memory.erase ((k, v) :: m) a = (k, v) :: Memory.erase m a := by simp [Memory.erase, h]
      rw [this, read_cons, if_neg h, ih]

theorem read_erase_ne (m : Memory) {a b : Nat} (h : b ≠ a) : (m.erase a).read b = m.read b := by
  induction m with
  | nil => rfl
  | cons c m ih =>
    obtain ⟨k, v⟩ := c
    by_cases hk : k = a
    · subst hk
      have : Memory.erase ((k, v) :: m) k = Memory.erase m k := by simp [Memory.erase]
      rw [this, ih, read_cons, if_neg (Ne.symm h)]
    · have : Memory.erase ((k, v) :: m) a = (k, v) :: Memory.erase m a := by simp [Memory.erase, hk]
      rw [this, read_cons, read_cons, ih]

theorem read_insert_same (m : Memory) (a : Nat) (v : Word) (h : ∀ c ∈ m, c.1 ≠ a) :
    (m.insert a v).read a = v := by
  induction m with
  | nil => simp [Memory.insert, read_cons]
  | cons c m ih =>
    obtain ⟨k, x⟩ := c
    have hk : k ≠ a := h (k, x) (by simp)
    unfold Memory.insert
    split
    · simp [read_cons]
    · rw [read_cons, if_neg hk]; exact ih fun c hc => h c (by simp [hc])

theorem read_insert_ne (m : Memory) {a b : Nat} (v : Word) (h : b ≠ a) : (m.insert a v).read b = m.read b := by
  induction m with
  | nil => simp [Memory.insert, read_cons, Ne.symm h]
  | cons c m ih =>
    obtain ⟨k, x⟩ := c
    unfold Memory.insert
    split
    · rw [read_cons, if_neg (Ne.symm h)]
    · rw [read_cons, read_cons, ih]

theorem erase_keys (m : Memory) (a : Nat) : ∀ c ∈ m.erase a, c.1 ≠ a := by
  intro c hc; simpa [Memory.erase] using (List.mem_filter.mp hc).2

/-- A read of the word just written gives it (R36). -/
@[simp] theorem read_write_same (m : Memory) (a : Nat) (v : Word) : (m.write a v).read a = v := by
  unfold Memory.write
  split
  · rename_i h; rw [read_erase_same, h, initMem_eq]
  · exact read_insert_same _ _ _ (erase_keys m a)

/-- "A write changes that word only" (R36). -/
theorem read_write_ne (m : Memory) {a b : Nat} (v : Word) (h : b ≠ a) : (m.write a v).read b = m.read b := by
  unfold Memory.write
  split
  · exact read_erase_ne m h
  · rw [read_insert_ne _ v h, read_erase_ne m h]

theorem wfFrom_cons (lo k : Nat) (v : Word) (m : Memory) :
    Memory.wfFrom lo ((k, v) :: m) = true ↔ lo ≤ k ∧ k < 1024 ∧ v ≠ 0#16 ∧ m.wfFrom (k + 1) = true := by
  simp only [Memory.wfFrom, Bool.and_eq_true, decide_eq_true_eq, and_assoc]
  rfl

theorem wfFrom_mono {lo lo' : Nat} (m : Memory) (h : lo' ≤ lo) (hm : m.wfFrom lo = true) :
    m.wfFrom lo' = true := by
  cases m with
  | nil => rfl
  | cons c m =>
    obtain ⟨k, v⟩ := c
    rw [wfFrom_cons] at hm ⊢
    exact ⟨Nat.le_trans h hm.1, hm.2⟩

theorem wfFrom_erase (m : Memory) (lo a : Nat) (hm : m.wfFrom lo = true) : (m.erase a).wfFrom lo = true := by
  induction m generalizing lo with
  | nil => rfl
  | cons c m ih =>
    obtain ⟨k, v⟩ := c
    rw [wfFrom_cons] at hm
    by_cases hk : k = a
    · subst hk
      have : Memory.erase ((k, v) :: m) k = Memory.erase m k := by simp [Memory.erase]
      rw [this]; exact wfFrom_mono _ (by omega) (ih (k + 1) hm.2.2.2)
    · have : Memory.erase ((k, v) :: m) a = (k, v) :: Memory.erase m a := by simp [Memory.erase, hk]
      rw [this, wfFrom_cons]; exact ⟨hm.1, hm.2.1, hm.2.2.1, ih _ hm.2.2.2⟩

theorem wfFrom_insert (m : Memory) (lo a : Nat) (v : Word) (hm : m.wfFrom lo = true) (hlo : lo ≤ a)
    (ha : a < 1024) (hv : v ≠ 0#16) (hk : ∀ c ∈ m, c.1 ≠ a) : (m.insert a v).wfFrom lo = true := by
  induction m generalizing lo with
  | nil => rw [Memory.insert, wfFrom_cons]; exact ⟨hlo, ha, hv, rfl⟩
  | cons c m ih =>
    obtain ⟨k, x⟩ := c
    have hka : k ≠ a := hk (k, x) (by simp)
    rw [wfFrom_cons] at hm
    unfold Memory.insert
    split
    · rw [wfFrom_cons, wfFrom_cons]; exact ⟨hlo, ha, hv, by omega, hm.2⟩
    · rw [wfFrom_cons]
      exact ⟨hm.1, hm.2.1, hm.2.2.1, ih _ hm.2.2.2 (by omega) fun c hc => hk c (by simp [hc])⟩

/-- A write inside memory keeps the canonical form. -/
theorem wf_write (m : Memory) (a : Nat) (v : Word) (hm : m.wf = true) (ha : a < 1024) :
    (m.write a v).wf = true := by
  unfold Memory.write Memory.wf at *
  split
  · exact wfFrom_erase m 0 a hm
  · rename_i hv
    exact wfFrom_insert _ 0 a v (wfFrom_erase m 0 a hm) (Nat.zero_le a) ha hv (erase_keys m a)

/-- Writing a sequence inside memory keeps the canonical form. -/
theorem wf_writeWords (ws : List Word) : ∀ (m : Memory) (base : Nat), m.wf = true → base + ws.length ≤ 1024 →
    (m.writeWords base ws).wf = true := by
  induction ws with
  | nil => intro m base hm _; exact hm
  | cons w ws ih =>
    intro m base hm h
    simp only [List.length_cons] at h
    exact ih _ _ (wf_write m base w hm (by omega)) (by omega)

theorem read_writeWords_below (ws : List Word) : ∀ (m : Memory) (base a : Nat), a < base →
    (m.writeWords base ws).read a = m.read a := by
  induction ws with
  | nil => intro m base a _; rfl
  | cons w ws ih =>
    intro m base a h
    rw [Memory.writeWords, ih _ _ a (by omega), read_write_ne _ _ (by omega)]

/-- A written sequence reads back word by word, and every other word is as before (R183). -/
theorem read_writeWords (ws : List Word) : ∀ (m : Memory) (base a : Nat),
    (m.writeWords base ws).read a = if base ≤ a then (ws[a - base]?).getD (m.read a) else m.read a := by
  induction ws with
  | nil => intro m base a; simp [Memory.writeWords]
  | cons w ws ih =>
    intro m base a
    rw [Memory.writeWords, ih]
    by_cases h : base + 1 ≤ a
    · obtain ⟨k, rfl⟩ : ∃ k, a = base + 1 + k := ⟨a - (base + 1), by omega⟩
      have h1 : base + 1 + k - base = k + 1 := by omega
      have h2 : base ≤ base + 1 + k := by omega
      rw [if_pos h, if_pos h2, read_write_ne _ _ (by omega), h1]; simp
    · by_cases h' : a = base
      · subst h'; simp
      · rw [if_neg h, if_neg (by omega), read_write_ne _ _ h']

end Memory

end Sys2Proof.Machine
end

