-- ==== Sys2Proof/Laws/State.lean ====
section
/-! SUPPORT. One lemma per field and update of the state, so that no proof unfolds a record update. -/

namespace Sys2Proof.Machine.State

variable (s : State)

@[simp] theorem readReg_writeReg_same (i : RegIdx) (v : Word) : (s.writeReg i v).readReg i = v := by
  simp [writeReg, readReg]

/-- Writing one register leaves the others (R10: no aliases, no hardwired register). -/
theorem readReg_writeReg_ne {i j : RegIdx} (v : Word) (h : j ≠ i) : (s.writeReg i v).readReg j = s.readReg j := by
  have hne : i.toNat ≠ j.toNat := fun he => h (BitVec.eq_of_toNat_eq he).symm
  simp [writeReg, readReg, hne]

@[simp] theorem writeReg_pc (i : RegIdx) (v : Word) : (s.writeReg i v).pc = s.pc := rfl
@[simp] theorem writeReg_mem (i : RegIdx) (v : Word) : (s.writeReg i v).mem = s.mem := rfl
@[simp] theorem writeReg_runState (i : RegIdx) (v : Word) : (s.writeReg i v).runState = s.runState := rfl
@[simp] theorem writeReg_word (i : RegIdx) (v : Word) (a : Nat) : (s.writeReg i v).word a = s.word a := rfl

@[simp] theorem setWord_regs (a : Nat) (v : Word) : (s.setWord a v).regs = s.regs := rfl
@[simp] theorem setWord_readReg (a : Nat) (v : Word) (i : RegIdx) : (s.setWord a v).readReg i = s.readReg i := rfl
@[simp] theorem setWord_pc (a : Nat) (v : Word) : (s.setWord a v).pc = s.pc := rfl
@[simp] theorem setWord_runState (a : Nat) (v : Word) : (s.setWord a v).runState = s.runState := rfl
@[simp] theorem setWord_mem (a : Nat) (v : Word) : (s.setWord a v).mem = s.mem.write a v := rfl
@[simp] theorem word_setWord_same (a : Nat) (v : Word) : (s.setWord a v).word a = v :=
  Memory.read_write_same s.mem a v
theorem word_setWord_ne {a b : Nat} (v : Word) (h : b ≠ a) : (s.setWord a v).word b = s.word b :=
  Memory.read_write_ne s.mem v h

@[simp] theorem advance_regs : s.advance.regs = s.regs := rfl
@[simp] theorem advance_readReg (i : RegIdx) : s.advance.readReg i = s.readReg i := rfl
@[simp] theorem advance_mem : s.advance.mem = s.mem := rfl
@[simp] theorem advance_word (a : Nat) : s.advance.word a = s.word a := rfl
@[simp] theorem advance_pc : s.advance.pc = s.pc + 1#16 := rfl
@[simp] theorem advance_runState : s.advance.runState = .running := rfl

@[simp] theorem jump_regs (t : Slot) : (s.jump t).regs = s.regs := rfl
@[simp] theorem jump_readReg (t : Slot) (i : RegIdx) : (s.jump t).readReg i = s.readReg i := rfl
@[simp] theorem jump_mem (t : Slot) : (s.jump t).mem = s.mem := rfl
@[simp] theorem jump_word (t : Slot) (a : Nat) : (s.jump t).word a = s.word a := rfl
@[simp] theorem jump_runState (t : Slot) : (s.jump t).runState = .running := rfl

/-- A jump goes to `PROG_OFFSET + t`, without a carry (R140, R15). -/
@[simp] theorem jump_pc_toNat (t : Slot) : (s.jump t).pc.toNat = 512 + t.toNat := by
  have h : t.toNat < 16 := t.isLt
  change (512#16 + t.setWidth 16).toNat = 512 + t.toNat
  rw [BitVec.toNat_add, BitVec.toNat_setWidth, Nat.mod_eq_of_lt (by omega : t.toNat < 2 ^ 16)]
  exact Nat.mod_eq_of_lt (by simp; omega)

@[simp] theorem halt_regs : s.halt.regs = s.regs := rfl
@[simp] theorem halt_readReg (i : RegIdx) : s.halt.readReg i = s.readReg i := rfl
@[simp] theorem halt_mem : s.halt.mem = s.mem := rfl
@[simp] theorem halt_word (a : Nat) : s.halt.word a = s.word a := rfl
@[simp] theorem halt_pc : s.halt.pc = s.pc := rfl
@[simp] theorem halt_runState : s.halt.runState = .halted := rfl

@[simp] theorem raise_regs (f : FaultReason) : (s.raise f).regs = s.regs := rfl
@[simp] theorem raise_readReg (f : FaultReason) (i : RegIdx) : (s.raise f).readReg i = s.readReg i := rfl
@[simp] theorem raise_mem (f : FaultReason) : (s.raise f).mem = s.mem := rfl
@[simp] theorem raise_word (f : FaultReason) (a : Nat) : (s.raise f).word a = s.word a := rfl
@[simp] theorem raise_pc (f : FaultReason) : (s.raise f).pc = s.pc := rfl
@[simp] theorem raise_runState (f : FaultReason) : (s.raise f).runState = .faulted f := rfl

@[simp] theorem makeReady_regs : s.makeReady.regs = s.regs := rfl
@[simp] theorem makeReady_readReg (i : RegIdx) : s.makeReady.readReg i = s.readReg i := rfl
@[simp] theorem makeReady_mem : s.makeReady.mem = s.mem := rfl
@[simp] theorem makeReady_word (a : Nat) : s.makeReady.word a = s.word a := rfl
@[simp] theorem makeReady_pc : s.makeReady.pc = 512#16 := rfl
@[simp] theorem makeReady_runState : s.makeReady.runState = .ready := rfl

@[simp] theorem writeBack_readReg_same (d : RegIdx) (v : Word) : (s.writeBack d v).readReg d = v := by
  simp [writeBack]
theorem writeBack_readReg_ne {d j : RegIdx} (v : Word) (h : j ≠ d) : (s.writeBack d v).readReg j = s.readReg j := by
  simp [writeBack, readReg_writeReg_ne s v h]
@[simp] theorem writeBack_mem (d : RegIdx) (v : Word) : (s.writeBack d v).mem = s.mem := rfl
@[simp] theorem writeBack_word (d : RegIdx) (v : Word) (a : Nat) : (s.writeBack d v).word a = s.word a := rfl
@[simp] theorem writeBack_pc (d : RegIdx) (v : Word) : (s.writeBack d v).pc = s.pc + 1#16 := rfl
@[simp] theorem writeBack_runState (d : RegIdx) (v : Word) : (s.writeBack d v).runState = .running := rfl

@[simp] theorem jumpIf_readReg (b : Bool) (t : Slot) (i : RegIdx) : (s.jumpIf b t).readReg i = s.readReg i := by
  cases b <;> rfl
@[simp] theorem jumpIf_mem (b : Bool) (t : Slot) : (s.jumpIf b t).mem = s.mem := by cases b <;> rfl
@[simp] theorem jumpIf_word (b : Bool) (t : Slot) (a : Nat) : (s.jumpIf b t).word a = s.word a := by cases b <;> rfl
@[simp] theorem jumpIf_runState (b : Bool) (t : Slot) : (s.jumpIf b t).runState = .running := by cases b <;> rfl

@[simp] theorem regOperand_eq (i : RegIdx) : s.regOperand i = s.readReg i := rfl
@[simp] theorem effectiveAddress_eq (i : RegIdx) : s.effectiveAddress i = s.readReg i := rfl

/-- `pc + 1` does not wrap in a core whose `pc` is inside memory (R15). -/
theorem advance_pc_toNat (h : s.pc.toNat < 1024) : (s.pc + 1#16).toNat = s.pc.toNat + 1 := by
  rw [BitVec.toNat_add]; simp; omega

end Sys2Proof.Machine.State
end

