-- ==== Sys2Proof/Laws/Ops.lean ====
section
/-! SUPPORT. What each shared operation can answer, said once. -/

namespace Sys2Proof.Machine

namespace State

variable (s : State)

/-- MemRead answers the word of an address inside memory and faults at any other (R32). -/
theorem memRead_cases (addr : Word) :
    (addr.toNat < 1024 ∧ s.memRead addr = .ok (s.word addr.toNat)) ∨
    (1024 ≤ addr.toNat ∧ s.memRead addr = .error (.dataAddressOutOfRange addr s.pc)) := by
  unfold memRead
  by_cases h : 1024 ≤ addr.toNat
  · exact .inr ⟨h, by simp [h]⟩
  · exact .inl ⟨by omega, by simp [h]⟩

/-- MemWrite stores at an address inside memory and faults at any other (R32). -/
theorem memWrite_cases (addr v : Word) :
    (addr.toNat < 1024 ∧ s.memWrite addr v = .ok (s.setWord addr.toNat v)) ∨
    (1024 ≤ addr.toNat ∧ s.memWrite addr v = .error (.dataAddressOutOfRange addr s.pc)) := by
  unfold memWrite
  by_cases h : 1024 ≤ addr.toNat
  · exact .inr ⟨h, by simp [h]⟩
  · exact .inl ⟨by omega, by simp [h]⟩

/-- The fetch reads the word at `pc` inside memory and reports `oob` elsewhere (R33). -/
theorem fetch_cases :
    (s.pc.toNat < 1024 ∧ s.fetch = some (s.word s.pc.toNat)) ∨ (1024 ≤ s.pc.toNat ∧ s.fetch = none) := by
  unfold fetch
  by_cases h : 1024 ≤ s.pc.toNat
  · exact .inr ⟨h, by simp [h]⟩
  · exact .inl ⟨by omega, by simp [h]⟩

theorem fetch_of_lt (h : s.pc.toNat < 1024) : s.fetch = some (s.word s.pc.toNat) := by
  rcases s.fetch_cases with ⟨_, hf⟩ | ⟨h', _⟩
  · exact hf
  · omega

theorem fetch_of_ge (h : 1024 ≤ s.pc.toNat) : s.fetch = none := by
  rcases s.fetch_cases with ⟨h', _⟩ | ⟨_, hf⟩
  · omega
  · exact hf

@[simp] theorem offEnd_false : s.offEnd false = s := rfl
@[simp] theorem offEnd_true : s.offEnd true = s.raise (.pcOutOfBounds s.pc) := rfl

end State

theorem nonZero_iff (a : Word) : nonZero a = true ↔ a.toNat ≠ 0 := by
  rw [nonZero, bne_iff_ne, ne_eq, ne_eq, not_iff_not]
  exact ⟨fun h => by simp [h], fun h => BitVec.eq_of_toNat_eq (by simpa using h)⟩

/-- The sum is the exact sum mod 2^16 (R120). -/
theorem alu_add_toNat (a b : Word) : (alu .add a b).toNat = (a.toNat + b.toNat) % 65536 := by
  simp [alu, BitVec.toNat_add]

/-- The difference is the exact difference mod 2^16 (R120). -/
theorem alu_sub_toNat (a b : Word) : ((alu .sub a b).toNat : Int) = ((a.toNat : Int) - b.toNat) % 65536 := by
  have ha := a.isLt
  have hb := b.isLt
  simp only [alu, BitVec.toNat_sub]
  omega

theorem zext16_toNat (f : Field) : (zext16 f).toNat = f.toNat := by
  have h : f.toNat < 16 := f.isLt
  rw [zext16, BitVec.toNat_setWidth]; exact Nat.mod_eq_of_lt (by omega)

end Sys2Proof.Machine
end

