-- ==== Sys2Proof/Laws/PerInstr.lean ====
section
/-! SUPPORT. Statements about every instruction as syntax, one lemma per constructor. FieldLayout: the fields of the
encoded word are the opcode value of its mnemonic and its operands in their places, unused fields 0 (R53, R66). -/

namespace Sys2Proof.Laws.FieldLayout

/-- The operands of an instruction in the order `dest`, `op1`, `op2`, absent ones 0. -/
def operands : Instr → Field × Field × Field
  | .nop | .halt => (0, 0, 0)
  | .lw d a | .sw d a | .mov d a => (d, a, 0)
  | .add d a b | .sub d a b | .cmp d a b | .addi d a b | .subi d a b => (d, a, b)
  | .jmp t => (t, 0, 0)
  | .jg t r | .jl t r => (t, r, 0)

/-- The four fields of the word of an instruction. -/
def Statement (i : Instr) : Prop :=
  opcodeOf (encode i) = i.mnemonic.opcode ∧
    (destOf (encode i), op1Of (encode i), op2Of (encode i)) = operands i

theorem nop : Statement .nop := by simp [Statement, encode, operands]
theorem lw (dest op1 : RegIdx) : Statement (.lw dest op1) := by simp [Statement, encode, operands]
theorem sw (dest op1 : RegIdx) : Statement (.sw dest op1) := by simp [Statement, encode, operands]
theorem add (dest op1 op2 : RegIdx) : Statement (.add dest op1 op2) := by simp [Statement, encode, operands]
theorem addi (dest op1 : RegIdx) (op2 : Imm) : Statement (.addi dest op1 op2) := by
  simp [Statement, encode, operands]
theorem sub (dest op1 op2 : RegIdx) : Statement (.sub dest op1 op2) := by simp [Statement, encode, operands]
theorem subi (dest op1 : RegIdx) (op2 : Imm) : Statement (.subi dest op1 op2) := by
  simp [Statement, encode, operands]
theorem cmp (dest op1 op2 : RegIdx) : Statement (.cmp dest op1 op2) := by simp [Statement, encode, operands]
theorem jmp (dest : Slot) : Statement (.jmp dest) := by simp [Statement, encode, operands]
theorem jg (dest : Slot) (op1 : RegIdx) : Statement (.jg dest op1) := by simp [Statement, encode, operands]
theorem jl (dest : Slot) (op1 : RegIdx) : Statement (.jl dest op1) := by simp [Statement, encode, operands]
theorem mov (dest op1 : RegIdx) : Statement (.mov dest op1) := by simp [Statement, encode, operands]
theorem halt : Statement .halt := by simp [Statement, encode, operands]

end Sys2Proof.Laws.FieldLayout
end

