-- ==== Sys2Proof/Laws/Step.lean ====
section
/-! SUPPORT. What a step can do, said once: `exec_shape` for an instruction, `stepWith_cases` for a step. -/

namespace Sys2Proof.Machine

/-- Every instruction answers a next state, and it has one of six shapes (R90): write a register and advance, store
a word and advance, advance, jump, halt, or raise a bad data address. -/
inductive Effect (s : State) : State → Prop where
  | writes (d : RegIdx) (v : Word) : Effect s (s.writeBack d v)
  | stores (a v : Word) (ha : a.toNat < 1024) : Effect s (s.setWord a.toNat v).advance
  | advances : Effect s s.advance
  | jumps (t : Slot) : Effect s (s.jump t)
  | halts : Effect s s.halt
  | badAddress (a : Word) (ha : 1024 ≤ a.toNat) : Effect s (s.raise (.dataAddressOutOfRange a s.pc))

theorem execLw_cases (d a : RegIdx) (s : State) :
    ((s.readReg a).toNat < 1024 ∧ execLw d a s = .next (s.writeBack d (s.word (s.readReg a).toNat))) ∨
    (1024 ≤ (s.readReg a).toNat ∧
      execLw d a s = .next (s.raise (.dataAddressOutOfRange (s.readReg a) s.pc))) := by
  rcases s.memRead_cases (s.readReg a) with ⟨h, hr⟩ | ⟨h, hr⟩
  · exact .inl ⟨h, by simp [execLw, hr]⟩
  · exact .inr ⟨h, by simp [execLw, hr]⟩

theorem execSw_cases (d a : RegIdx) (s : State) :
    ((s.readReg a).toNat < 1024 ∧
      execSw d a s = .next (s.setWord (s.readReg a).toNat (s.readReg d)).advance) ∨
    (1024 ≤ (s.readReg a).toNat ∧
      execSw d a s = .next (s.raise (.dataAddressOutOfRange (s.readReg a) s.pc))) := by
  rcases s.memWrite_cases (s.readReg a) (s.readReg d) with ⟨h, hr⟩ | ⟨h, hr⟩
  · exact .inl ⟨h, by simp [execSw, hr]⟩
  · exact .inr ⟨h, by simp [execSw, hr]⟩

theorem jumpIf_effect (s : State) (b : Bool) (t : Slot) : Effect s (s.jumpIf b t) := by
  cases b
  · exact .advances
  · exact .jumps t

/-- An instruction answers a next state of one of the six shapes. -/
theorem exec_shape (i : Instr) (s : State) : ∃ t, exec i s = .next t ∧ Effect s t := by
  cases i with
  | nop => exact ⟨_, rfl, .advances⟩
  | lw d a =>
    rcases execLw_cases d a s with ⟨_, h⟩ | ⟨hr, h⟩
    · exact ⟨_, h, .writes d _⟩
    · exact ⟨_, h, .badAddress _ hr⟩
  | sw d a =>
    rcases execSw_cases d a s with ⟨hr, h⟩ | ⟨hr, h⟩
    · exact ⟨_, h, .stores _ _ hr⟩
    · exact ⟨_, h, .badAddress _ hr⟩
  | add d a b => exact ⟨_, rfl, .writes d _⟩
  | addi d a k => exact ⟨_, rfl, .writes d _⟩
  | sub d a b => exact ⟨_, rfl, .writes d _⟩
  | subi d a k => exact ⟨_, rfl, .writes d _⟩
  | cmp d a b => exact ⟨_, rfl, .writes d _⟩
  | jmp t => exact ⟨_, rfl, .jumps t⟩
  | jg t r => exact ⟨_, rfl, jumpIf_effect s _ t⟩
  | jl t r => exact ⟨_, rfl, jumpIf_effect s _ t⟩
  | mov d a => exact ⟨_, rfl, .writes d _⟩
  | halt => exact ⟨_, rfl, .halts⟩

/-- The clauses of a step (R90): a terminal core keeps its state (S1, S2); a core past the end of memory does what
`offEnd` says (S3); else the fetched word is executed (S5, S7) or raises UnknownOpcode. -/
theorem stepWith_cases (b : Bool) (s : State) :
    (s.runState.live = false ∧ stepWith b s = .next s) ∨
    (s.runState.live = true ∧ 1024 ≤ s.pc.toNat ∧ stepWith b s = .next (s.offEnd b)) ∨
    (s.runState.live = true ∧ s.pc.toNat < 1024 ∧
      ((∃ i, decode (s.word s.pc.toNat) = .ok i ∧ stepWith b s = exec i s) ∨
       (∃ e, decode (s.word s.pc.toNat) = .error e ∧
         stepWith b s = .next (s.raise (.unknownOpcode (s.word s.pc.toNat) s.pc))))) := by
  have herr : ∀ w e, decode w = .error e → e = .unassignedOpcode w := by
    intro w e h
    unfold decode at h
    split at h <;> simp_all
  cases hr : s.runState with
  | halted => left; exact ⟨rfl, by simp [stepWith, hr]⟩
  | faulted r => left; exact ⟨rfl, by simp [stepWith, hr]⟩
  | ready | running =>
    right
    rcases s.fetch_cases with ⟨h, hf⟩ | ⟨h, hf⟩
    · right
      refine ⟨rfl, h, ?_⟩
      cases hd : decode (s.word s.pc.toNat) with
      | ok i => left; exact ⟨i, rfl, by simp [stepWith, hr, hf, hd]⟩
      | error e =>
        right
        have := herr _ _ hd
        subst this
        exact ⟨_, rfl, by simp [stepWith, hr, hf, hd]⟩
    · left; exact ⟨rfl, h, by simp [stepWith, hr, hf]⟩

/-- The step of a core that executes is its instruction, or the fault of an illegal word. -/
theorem stepWith_of_executes {b : Bool} {s : State} (h : s.executes) :
    stepWith b s = match decode s.current with
      | .ok i => exec i s
      | .error _ => .next (s.raise (.unknownOpcode s.current s.pc)) := by
  obtain ⟨hl, hp⟩ := h
  rcases stepWith_cases b s with ⟨h1, _⟩ | ⟨_, h2, _⟩ | ⟨_, _, ⟨i, hd, h3⟩ | ⟨e, hd, h3⟩⟩
  · rw [hl] at h1; cases h1
  · simp at hp; omega
  · rw [h3]; simp only [State.current, hd]
  · rw [h3]; simp only [State.current, hd]

/-- A core that does not execute keeps its state, or is past the end of memory. -/
theorem stepWith_of_not_executes {s : State} (h : ¬ s.executes) (b : Bool) :
    stepWith b s = .next (if s.runState.live then s.offEnd b else s) := by
  rcases stepWith_cases b s with ⟨h1, h2⟩ | ⟨h1, _, h2⟩ | ⟨h1, h3, _⟩
  · rw [h2, h1]; rfl
  · rw [h2, h1]; rfl
  · exact absurd ⟨h1, by simp; omega⟩ h

theorem step_eq (s : State) : step s = stepWith false s := rfl

/-- One step of a run of the machine as the host's interface runs it. -/
theorem core_run_succ {s t : State} (h : step s = .next t) (k : Nat) : core.run (k + 1) s = core.run k t := by
  have general : ∀ (M : Host.Core) (a b : M.State), M.step a = .next b → M.run (k + 1) a = M.run k b := by
    intro M a b hab
    simp [Host.Core.run, hab]
  exact general core s t h

end Sys2Proof.Machine
end

