-- ==== Sys2Proof/Tests/Slice0.lean ====
section
/-! SUPPORT. Tests: the worked examples (S), single-step vectors (V) and programs (P) of 95_test_vectors.md, the
smoke tests of WellFormed, and for each statement with hypotheses a witness that meets them. Every expected value
is the spec's. -/

namespace Sys2Proof.Tests

open Sys2Proof.Machine

/-- The next state of a result. -/
def after : StepResult → Option State
  | .next t => some t
  | .fault _ | .refused _ => none

/-- Running at `pc` with word `w` there, the rest as after reset; then the given registers and words. -/
def start (pc w : Word) (regs : List (RegIdx × Word) := []) (cells : List (Nat × Word) := []) : State :=
  let s : State := { State.reset with pc := pc, runState := .running }
  let s := cells.foldl (fun s c => s.setWord c.1 c.2) (s.setWord pc.toNat w)
  regs.foldl (fun s r => s.writeReg r.1 r.2) s

/-- What a step leaves in `pc`, in `run_state` and in one register. -/
def regAfter (s : State) (r : RegIdx) : Option (Word × Word × RunState) :=
  (after (step s)).map fun t => (t.readReg r, t.pc, t.runState)

/-- What a step leaves in `pc`, in `run_state` and in one memory word. -/
def wordAfter (s : State) (a : Nat) : Option (Word × Word × RunState) :=
  (after (step s)).map fun t => (t.word a, t.pc, t.runState)

/-! Decoding: words from the spec's encodings, at least one for every constructor; R59's ranges. -/

theorem test_decode_examples : decode 0x1310 = .ok (.lw 3 1) ∧ decode 0x2210 = .ok (.sw 2 1) ∧
    decode 0x3ABC = .ok (.add 10 11 12) ∧ decode 0x4105 = .ok (.addi 1 0 5) ∧ decode 0x5634 = .ok (.sub 6 3 4) ∧
    decode 0x611F = .ok (.subi 1 1 15) ∧ decode 0x7534 = .ok (.cmp 5 3 4) := by decide
theorem test_decode_examples_2 : decode 0x8500 = .ok (.jmp 5) ∧ decode 0x9210 = .ok (.jg 2 1) ∧
    decode 0xA850 = .ok (.jl 8 5) ∧ decode 0xC120 = .ok (.mov 1 2) ∧ decode 0xF000 = .ok .halt ∧
    decode 0x0000 = .ok .nop := by decide
/-- V1.10, V3.10, V4.3, V5.5: ignored fields. -/
theorem test_decode_ignored_fields : decode 0x131F = .ok (.lw 3 1) ∧ decode 0xC12F = .ok (.mov 1 2) ∧
    decode 0x8FAB = .ok (.jmp 15) ∧ decode 0xFABC = .ok .halt := by decide
theorem test_decode_illegal_edges : [0x0001, 0x0FFF, 0xB000, 0xBFFF, 0xD000, 0xEFFF].all
    (fun w => decode w == .error (.unassignedOpcode w)) = true := by decide
theorem test_decode_legal_edges : [0x0000, 0x1000, 0xAFFF, 0xC000, 0xCFFF, 0xF000, 0xFFFF].all
    (fun w => (decode w).toOption.isSome) = true := by decide
theorem test_encode_examples : encode (.lw 3 1) = 0x1310 ∧ encode (.sw 2 1) = 0x2210 ∧
    encode (.cmp 5 3 4) = 0x7534 ∧ encode (.jmp 0) = 0x8000 ∧ encode (.jg 2 1) = 0x9210 ∧
    encode (.mov 1 2) = 0xC120 ∧ encode .halt = 0xF000 ∧ encode .nop = 0x0000 := by decide
/-- V6.4 to V6.8. -/
theorem test_pack : packWord 4 0 0 20 = 0x4004 ∧ packWord 4 1 0 (-1) = 0x410F ∧ packWord 4 17 0 1 = 0x4101 ∧
    packWord 8 16 0 0 = 0x8000 ∧ packWord 8 21 0 0 = 0x8500 := by decide
theorem test_decodeTableWord : decodeTableWord 16 0x4105 = some (.addi 1 0 5) ∧
    decodeTableWord 16 0xB000 = none := by decide

/-! Well-formedness: each check refuses an ill-formed term (R59, R66). -/

theorem test_wf_illegal_words : Word.legal 0x0001 = false ∧ Word.legal 0x0FFF = false ∧
    Word.legal 0xB000 = false ∧ Word.legal 0xBFFF = false ∧ Word.legal 0xD000 = false ∧
    Word.legal 0xEFFF = false ∧ Word.legal 0x0000 = true ∧ Word.legal 0xAFFF = true := by decide
theorem test_wf_count : Mnemonic.countOk .add [.reg 1, .reg 2] = false ∧
    Mnemonic.countOk .halt [.reg 0] = false := by decide
theorem test_wf_roles : Mnemonic.rolesOk .add [.reg 1, .imm 2, .reg 3] = false ∧
    Mnemonic.rolesOk .addi [.reg 1, .reg 0, .reg 5] = false ∧ Mnemonic.rolesOk .jmp [.imm 3] = false ∧
    Mnemonic.rolesOk .jg [.reg 1, .label ['L']] = false := by decide
theorem test_wf_good : Mnemonic.wellFormed .jg [.label ['L'], .reg 1] = true ∧
    Mnemonic.wellFormed .nop [] = true := by decide
theorem test_wf_memory : Memory.wf [(3, 1), (3, 2)] = false ∧ Memory.wf [(4, 1), (3, 2)] = false ∧
    Memory.wf [(3, 0)] = false ∧ Memory.wf [(1024, 1)] = false ∧ Memory.wf [(0, 7), (1023, 1)] = true := by decide

/-! One step. -/

/-- V1.1 and V1.3. -/
theorem test_lw : regAfter (start 520 0x1310 [(1, 10)] [(10, 7)]) 3 = some (7, 521, .running) := by decide
theorem test_lw_same_register : regAfter (start 520 0x1110 [(1, 3)] [(3, 0xBEEF)]) 1 = some (0xBEEF, 521, .running) := by
  decide
/-- V1.4 and V1.12. -/
theorem test_sw_same_register : wordAfter (start 520 0x2110 [(1, 0x155)]) 0x155 = some (0x155, 521, .running) := by
  decide
theorem test_sw_over_itself : wordAfter (start 520 0x2210 [(1, 520)]) 520 = some (0, 521, .running) := by decide
/-- V1.8 and V1.9. -/
theorem test_lw_bad_address : regAfter (start 520 0x1210 [(1, 1024)]) 2 =
    some (0, 520, .faulted (.dataAddressOutOfRange 1024 520)) := by decide
theorem test_sw_bad_address : regAfter (start 520 0x2210 [(1, 0xFFFF), (2, 5)]) 2 =
    some (5, 520, .faulted (.dataAddressOutOfRange 0xFFFF 520)) := by decide
/-- V2.2, V2.4. -/
theorem test_add_wraps : regAfter (start 520 0x3312 [(1, 0xFFFF), (2, 1)]) 3 = some (0, 521, .running) := by decide
theorem test_add_doubles : regAfter (start 520 0x3111 [(1, 0xFFFF)]) 1 = some (0xFFFE, 521, .running) := by decide
/-- V2.7, V2.10. -/
theorem test_addi_unsigned : regAfter (start 520 0x410F) 1 = some (15, 521, .running) := by decide
theorem test_addi_wraps : regAfter (start 520 0x411F [(1, 0xFFF8)]) 1 = some (7, 521, .running) := by decide
/-- V2.11, V2.12. -/
theorem test_sub_wraps : regAfter (start 520 0x5001 [(1, 1)]) 0 = some (0xFFFF, 521, .running) := by decide
theorem test_sub_order : regAfter (start 520 0x5634 [(3, 7), (4, 9)]) 6 = some (0xFFFE, 521, .running) := by decide
/-- V2.17, V2.18. -/
theorem test_subi_wraps : regAfter (start 520 0x6111) 1 = some (0xFFFF, 521, .running) := by decide
theorem test_subi_fifteen : regAfter (start 520 0x611F [(1, 5)]) 1 = some (0xFFF6, 521, .running) := by decide
/-- V3.4, V3.8. -/
theorem test_cmp_unsigned : regAfter (start 520 0x7534 [(3, 1), (4, 0xFFFF)]) 5 = some (1, 521, .running) := by decide
theorem test_cmp_writes_whole : regAfter (start 520 0x7534 [(5, 0xFFFF), (3, 9), (4, 7)]) 5 = some (0, 521, .running) := by
  decide
/-- V3.9, V3.12. -/
theorem test_mov : regAfter (start 520 0xC120 [(2, 0x1234)]) 1 = some (0x1234, 521, .running) := by decide
theorem test_mov_r0 : regAfter (start 520 0xC0F0 [(15, 9)]) 0 = some (9, 521, .running) := by decide
/-- V4.1, V4.3. -/
theorem test_jmp : regAfter (start 513 0x8000) 0 = some (0, 512, .running) := by decide
theorem test_jmp_ignores : regAfter (start 600 0x8FAB) 0 = some (0, 527, .running) := by decide
/-- V4.7, V4.12. -/
theorem test_jg_unsigned : regAfter (start 517 0x9210 [(1, 0x8000)]) 1 = some (0x8000, 514, .running) := by decide
theorem test_jg_last_word : regAfter (start 1023 0x9210) 1 = some (0, 1024, .running) := by decide
/-- V4.9, V4.10. -/
theorem test_jl_not_taken : regAfter (start 518 0xA850 [(5, 1)]) 5 = some (1, 519, .running) := by decide
theorem test_jl_taken : regAfter (start 518 0xA850) 5 = some (0, 520, .running) := by decide
/-- V5.1, V5.2. -/
theorem test_nop_from_reset : regAfter State.reset 0 = some (0, 513, .running) := by decide
theorem test_nop_last_word : regAfter (start 1023 0) 0 = some (0, 1024, .running) := by decide
/-- V5.4, V5.5. -/
theorem test_halt : regAfter (start 513 0xF000) 0 = some (0, 513, .halted) := by decide
theorem test_halt_ignores : regAfter (start 513 0xFABC) 0 = some (0, 513, .halted) := by decide
/-- V5.7, V5.10. -/
theorem test_unknown_opcode : regAfter (start 512 0xB000) 0 =
    some (0, 512, .faulted (.unknownOpcode 0xB000 512)) := by decide
theorem test_opcode_zero_nonzero_word : regAfter (start 512 0x0123) 0 =
    some (0, 512, .faulted (.unknownOpcode 0x0123 512)) := by decide
/-- V5.3, both values of `OOB_IS_FAULT`. -/
theorem test_soft_stop : after (step (start 1024 0)) = some (start 1024 0) ∧
    outcomeOf false (start 1024 0) (start 1024 0) = .pcOutOfBounds := by decide
theorem test_off_end_fault : (after (stepWith true (start 1024 0))).map (·.runState) =
    some (.faulted (.pcOutOfBounds 1024)) := by decide
/-- V5.6, V5.12. -/
theorem test_terminal : after (step { start 513 0xF000 with runState := .halted }) =
      some { start 513 0xF000 with runState := .halted } ∧
    after (step { start 512 0 with runState := .faulted (.unknownOpcode 0xB000 512) }) =
      some { start 512 0 with runState := .faulted (.unknownOpcode 0xB000 512) } := by decide

/-! Host moves. -/

/-- V7.3: a second load keeps registers and the tail of the first. -/
theorem test_second_load :
    ((({ start 518 0xF000 [(2, 15)] with runState := .halted } : State).loadProgram [0x4105, 0xF000]).toOption.map
      fun t => (t.word 512, t.word 513, t.word 518, t.readReg 2, t.pc, t.runState)) =
      some (0x4105, 0xF000, 0xF000, 15, 512, .ready) := by decide
/-- V7.6. -/
theorem test_empty_load : ((start 600 0xF000).loadProgram []).toOption =
    some { start 600 0xF000 with pc := 512, runState := .ready } := by decide
theorem test_withFetchWord_after_reset : regAfter (State.reset.withFetchWord 16 0x4105) 1 = some (5, 513, .running) := by
  decide
theorem test_datapath_lw : (datapathStep ⟨.dest, .ltu, .imm, .alu⟩ false (start 520 0x1310 [(1, 10)] [(10, 7)])) =
    start 521 7 [(1, 10), (3, 7)] [(520, 0x1310), (521, 0), (10, 7)] := by decide

/-! The assembler. -/

/-- S2 and P1's label line. -/
theorem test_assemble_label : assemble "L:\nJMP L\nHALT" = .ok [0x0000, 0x8000, 0xF000] := by decide
theorem test_assemble_comments : assemble "  ADDI R1, R0, -1 ; minus one\n\nSW R2,R1" = .ok [0x410F, 0x2210] := by decide
/-- Log entry 11: every comma is a separator and only that. -/
theorem test_assemble_stray_commas : assemble "ADD,R1,,R2,R3," = .ok [0x3123] := by decide
theorem test_assemble_masked_register : assemble "ADDI R17 R0 1" = .ok [0x4101] := by decide
/-- S6. -/
theorem test_assemble_errors : assemble "L:\nL:\nHALT" = .error (.duplicateLabel 2) ∧
    assemble "JMP NOWHERE\nHALT" = .error (.unresolvedLabel 1) ∧
    assemble "CMPI R1, R2, 3" = .error (.unknownMnemonic 1) ∧
    assemble "ADD R1, 2, R3" = .error (.roleMismatch .reg 1) := by decide
theorem test_assemble_more_errors : assemble "ADD R1, R2" = .error (.wrongOperandCount 1) ∧
    assemble "\nJMP 3" = .error (.roleMismatch .label 2) := by decide

/-! Witnesses: for each statement with hypotheses, a state and operands that meet them. -/

theorem witness_NopOnlyAdvancesPc : decode 0x0000 = .ok .nop ∧ (start 512 0).executes := by
  unfold State.executes; decide
theorem witness_LwLoadsTheAddressedWord : ((start 520 0 [(1, 1023)]).readReg 1).toNat < 1024 := by decide
theorem witness_SwStoresOneWord : ((start 520 0 [(1, 1023)]).readReg 1).toNat < 1024 ∧
    ((start 520 0).readReg 1).toNat < 1024 := by decide
theorem witness_AddiAddsUnsignedImmediate : (20 : Int) % 16 = ((4 : Field).toNat : Int) ∧
    (-1 : Int) % 16 = ((15 : Field).toNat : Int) := by decide
theorem witness_SubiSubtractsUnsignedImmediate : (16 : Int) % 16 = ((0 : Field).toNat : Int) := by decide
theorem witness_JmpGoesToItsSlot : (start 1023 0x8000).executes ∧ 21 % 16 = (5 : Field).toNat := by
  unfold State.executes; decide
theorem witness_JgTakenIffRegisterNonZero : 0 < ((start 512 0 [(1, 1)]).readReg 1).toNat ∧
    ((start 512 0).readReg 1).toNat = 0 := by decide
theorem witness_JlTakenIffRegisterZero : ((start 512 0).readReg 1).toNat = 0 ∧
    ((start 512 0 [(1, 0xFFFF)]).readReg 1).toNat ≠ 0 := by decide
theorem witness_HaltIsTerminal : 0xF000 ≤ (0xF000 : Word).toNat ∧ 0xF000 ≤ (0xFFFF : Word).toNat ∧
    (start 512 0xF000).executes ∧
    ∃ u reply, drive { start 512 0xF000 with runState := .halted } .reset = .next (u, reply) ∧ u.runState ≠ .halted :=
  ⟨by decide, by decide, ⟨by decide, by decide⟩, State.reset, .resetDone, rfl, by decide⟩
theorem witness_DataFaultIsPrecise : 1024 ≤ ((start 520 0 [(1, 1024)]).readReg 1).toNat ∧
    1024 ≤ ((start 520 0 [(1, 0xFFFF)]).readReg 1).toNat := by decide
theorem witness_UnassignedOpcodeFaults : (start 512 0xB000).executes ∧ (start 512 0xB000).current = 0xB000 ∧
    [0x0001, 0x0FFF, 0xB000, 0xBFFF, 0xD000, 0xEFFF].all
      (fun w : Word => w != 0 && [0x0, 0xB, 0xD, 0xE].contains (w.toNat / 4096)) = true :=
  ⟨⟨by decide, by decide⟩, by decide, by decide⟩
theorem witness_EncodeOfDecodeClearsIgnoredFields : decode 0x131F = .ok (.lw 3 1) := by decide
theorem witness_IgnoredFieldsNeverMatter : decode 0x131F = .ok (.lw 3 1) ∧
    0x1310 &&& (Instr.lw 3 1).mnemonic.usedBits = 0x131F &&& (Instr.lw 3 1).mnemonic.usedBits := by decide
theorem witness_WordPartition : (0x0000 : Word).toNat = 0 ∧
    (0x0001 ≤ (0x0FFF : Word).toNat ∧ (0x0FFF : Word).toNat ≤ 0x0FFF) ∧
    (0x1000 ≤ (0xAFFF : Word).toNat ∧ (0xAFFF : Word).toNat ≤ 0xAFFF) ∧
    (0xB000 ≤ (0xBFFF : Word).toNat ∧ (0xBFFF : Word).toNat ≤ 0xBFFF) ∧
    (0xC000 ≤ (0xCFFF : Word).toNat ∧ (0xCFFF : Word).toNat ≤ 0xCFFF) ∧
    (0xD000 ≤ (0xD000 : Word).toNat ∧ (0xEFFF : Word).toNat ≤ 0xEFFF) ∧ 0xF000 ≤ (0xF000 : Word).toNat := by decide
theorem witness_StepRunsTheDecodedInstruction : (start 1023 0x4105).runState.live = true ∧
    (start 1023 0x4105).pc.toNat < 1024 ∧
    decode ((start 1023 0x4105).word (start 1023 0x4105).pc.toNat) = .ok (.addi 1 0 5) := by decide
theorem witness_PlacedWordIsRunNext : decodeTableWord 16 0xF000 = some .halt := by decide
theorem witness_PastTheEndIsASoftStop : (start 1024 0).runState.live = true ∧ 1024 ≤ (start 1024 0).pc.toNat := by
  decide
theorem witness_TerminalCoreIsFrozen : ({ start 512 0 with runState := .halted } : State).runState = .halted ∧
    ({ start 512 0 with runState := .faulted (.unknownOpcode 1 512) } : State).runState =
      .faulted (.unknownOpcode 1 512) := by decide
theorem witness_RunStateTransitions : (∃ t, stepWith true (start 512 0xF000) = .next t ∧ t.runState = .halted) ∧
    (start 512 0xF000).executes ∧
    ∃ t, stepWith false { start 1024 0 with runState := .ready } = .next t ∧ t.runState = .ready :=
  ⟨⟨_, rfl, rfl⟩, ⟨by decide, by decide⟩, _, rfl, rfl⟩
theorem witness_PcChangesByTheTable : (∃ t, step (start 512 0x8300) = .next t) ∧ (start 512 0x8300).executes ∧
    decode (start 512 0x8300).current = .ok (.jmp 3) ∧ ¬ (start 1024 0).executes ∧
    decode (start 512 0xB000).current = .error (.unassignedOpcode 0xB000) :=
  ⟨⟨_, rfl⟩, ⟨by decide, by decide⟩, by decide, (fun h => absurd h.2 (by decide)), by decide⟩
/-- A step that changes a word, at the highest address, one that changes a register, and one that changes neither. -/
theorem witness_StepChangesAtMostOneLocation :
    (∃ t, stepWith false (start 520 0x2210 [(1, 1023), (2, 6)]) = .next t ∧ t.word 1023 = 6) ∧
    decode (start 520 0x2210).current = .ok (.sw 2 1) ∧
    ((start 520 0x2210 [(1, 1023), (2, 6)]).effectiveAddress 1).toNat = 1023 ∧
    (∃ t, stepWith false (start 520 0x4F0F) = .next t ∧ t.readReg 15 = 15) ∧
    (decode (start 520 0x4F0F).current).toOption.bind Instr.destReg = some 15 ∧
    ∃ t, stepWith true (start 1024 0) = .next t :=
  ⟨⟨_, rfl, by decide⟩, by decide, by decide, ⟨_, rfl, by decide⟩, by decide, _, rfl⟩
theorem witness_OnlySwChangesMemory : ∃ t, step (start 520 0x2210 [(1, 1023), (2, 6)]) = .next t ∧
    t.word 1023 ≠ (start 520 0x2210 [(1, 1023), (2, 6)]).word 1023 := ⟨_, rfl, by decide⟩
theorem witness_OnlyTheDestinationRegisterChanges : ∃ t, step (start 520 0x4105) = .next t ∧
    t.readReg 1 ≠ (start 520 0x4105).readReg 1 := ⟨_, rfl, by decide⟩
theorem witness_OnlyListedRegistersAreRead :
    let i : Instr := .add 1 2 3
    let s := start 520 0 [(2, 4)]
    let s' := start 520 0 [(2, 4), (7, 9)]
    s'.pc = s.pc ∧ s'.mem = s.mem ∧ s'.runState = s.runState ∧ (∀ r ∈ i.readRegs, s'.readReg r = s.readReg r) ∧
      ∃ t t', exec i s = .next t ∧ exec i s' = .next t' ∧ t.runState = .running ∧ i.destReg = some 1 :=
  ⟨by decide, by decide, by decide, by decide, _, _, rfl, rfl, rfl, rfl⟩
theorem witness_ReadyAndRunningStepAlike : (start 1023 0x1210).pc.toNat < 1024 := by decide
theorem witness_NextFetchSeesTheStore :
    let s := start 520 0x2210 [(1, 521), (2, 0xF000)]
    s.executes ∧ decode s.current = .ok (.sw 2 1) ∧ (s.readReg 1).toNat = s.pc.toNat + 1 ∧ s.pc.toNat + 1 < 1024 ∧
      decode (s.readReg 2) = .ok .halt := by
  unfold State.executes; decide
theorem witness_RunEndIsFinal :
    (∃ t, drive (start 512 0xF000) .step = .next (t, .stepped .halted)) ∧
    (∃ t, drive (start 512 0xB000) .step = .next (t, .stepped (.faulted (.unknownOpcode 0xB000 512)))) ∧
    (∃ t, drive (start 1024 0) .step = .next (t, .stepped .pcOutOfBounds)) ∧
    StepOutcome.ended .halted = true ∧ StepOutcome.ended (.faulted (.unknownOpcode 0xB000 512)) = true ∧
    StepOutcome.ended .pcOutOfBounds = true :=
  ⟨⟨_, rfl⟩, ⟨_, rfl⟩, ⟨_, rfl⟩, rfl, rfl, rfl⟩
theorem witness_ZeroWordsAreWalkedAsNops : State.reset.runState.live = true ∧ State.reset.pc.toNat + 512 ≤ 1024 ∧
    ∀ y, State.reset.pc.toNat ≤ y → y < 1024 → State.reset.word y = 0 := ⟨rfl, by decide, fun _ _ _ => rfl⟩
/-- The invariant in a Running, a Halted and a Faulted state, the first with a step. -/
theorem witness_StepKeepsInv : (start 520 0x1210).Inv ∧ ∃ t, step (start 520 0x1210) = .next t :=
  ⟨⟨by decide, by decide, by decide, by decide, fun h => absurd h (by decide), fun _ h => nomatch h⟩, _, rfl⟩
theorem witness_Inv_halted : ({ start 520 0xF123 with runState := .halted } : State).Inv :=
  ⟨by decide, by decide, by decide, by decide, fun _ => ⟨0xF123, by decide, by decide⟩, fun _ h => nomatch h⟩
theorem witness_Inv_faulted :
    ({ start 520 0x2210 [(1, 0xFFFF)] with runState := .faulted (.dataAddressOutOfRange 0xFFFF 520) } : State).Inv :=
  ⟨by decide, by decide, by decide, (fun h => nomatch h), (fun h => nomatch h), fun _ h => by
    cases h; exact ⟨rfl, by decide, 0x2210, 2, 1, by decide, .inr (by decide), by decide⟩⟩
theorem witness_ReachableStatesMeetInv : ∃ s, Reachable s ∧ s.runState = .running :=
  ⟨_, .move .step (.stepped .continued) .reset rfl, rfl⟩
theorem witness_LoadProgramEffect : (List.replicate 512 (0xF000 : Word)).length ≤ 512 ∧
    511 < (List.replicate 512 (0xF000 : Word)).length ∧ (start 520 7).mem.wf = true :=
  ⟨by rw [List.length_replicate], by rw [List.length_replicate]; decide, by decide⟩
theorem witness_ResetTakesAnyInitialMemory : 0 < 1024 ∧ 1023 < 1024 := by decide
theorem witness_OversizeLoadIsRefused : 512 < (List.replicate 513 (0 : Word)).length := by
  rw [List.length_replicate]; decide
/-- The lines of `JMP L`, a blank line, `L:`, `JG L, R17`, `JL L, R15`. -/
def jumpLines : List SourceLine :=
  [.statement "JMP".toList [.label ['L']], .blank, .labelDecl ['L'], .statement "JG".toList [.label ['L'], .reg 17],
    .statement "JL".toList [.label ['L'], .reg 15]]
/-- A jump before the label and two after it; R66's table gives the words. -/
theorem witness_JumpTargetsTheLabelSlot : assembleLines jumpLines = .ok [0x8100, 0x0000, 0x9110, 0xA1F0] ∧
    (slotLines jumpLines)[1]? = some (.labelDecl ['L']) ∧
    (slotLines jumpLines)[0]? = some (.statement "JMP".toList [.label ['L']]) ∧
    (slotLines jumpLines)[2]? = some (.statement "JG".toList [.label ['L'], .reg 17]) ∧
    (slotLines jumpLines)[3]? = some (.statement "JL".toList [.label ['L'], .reg 15]) := by decide
theorem witness_OneWordPerLineAndLabel : assembleLines jumpLines = .ok [0x8100, 0x0000, 0x9110, 0xA1F0] ∧
    (slotLines jumpLines)[1]? = some (.labelDecl ['L']) ∧
    (slotLines jumpLines)[3]? = some (.statement "JL".toList [.label ['L'], .reg 15]) := by decide
theorem witness_AssembledWordsAreLegal : assembleChars "MOV R1, R2".toList = .ok [0xC120] ∧
    (0xC120 : Word) ∈ [(0xC120 : Word)] := by decide
theorem witness_StatementsEncodeTheirInstruction : ([(['L'], 21)] : LabelTable).lookup ['L'] = some 21 := by decide
/-- Each jump to a label that no line declares, and a CMPI line. -/
theorem witness_BadSourceNeverAssembles :
    (∀ c ∈ ["JMP".toList, "JG".toList, "JL".toList],
      SourceLine.statement c [.label ['M'], .reg 1] ∈ [SourceLine.statement c [.label ['M'], .reg 1]] ∧
      SourceLine.labelDecl ['M'] ∉ [SourceLine.statement c [.label ['M'], .reg 1]]) ∧
    SourceLine.statement "CMPI".toList [.reg 1] ∈ [SourceLine.statement "CMPI".toList [.reg 1]] := by decide

end Sys2Proof.Tests
end

section
/-! The assembler's packing on integers (30_encoding.md R60). -/

namespace Sys2Proof

open Sys2Proof.Machine

/-- Masking a value to a field (R60) keeps its Euclidean remainder by 16, so a negative value is masked by its
two's-complement form. -/
theorem field_ofInt_toNat (v : Int) : ((BitVec.ofInt 4 v).toNat : Int) = v % 16 := by
  rw [BitVec.toNat_ofInt]
  exact Int.toNat_of_nonneg (Int.emod_nonneg v (by decide))

/-- Settles O21: the packed word is the weighted sum of its masked fields, and each masked field is the value's
remainder by 16. -/
theorem packingMasksEachField : Obligations.PackingMasksEachField := by
  intro opc f0 f1 f2
  rw [packWord_toNat]
  push_cast
  simp only [field_ofInt_toNat]

end Sys2Proof
end

section
/-! ADD, ADDI, SUB and SUBI (42_arithmetic.md R121 to R124): their words, their literal, their result and what they
leave unchanged. -/

namespace Sys2Proof

open Sys2Proof.Machine

/-- A word whose opcode field is assigned decodes by that field: it is not the NOP word, whose opcode field 0 is not
assigned (R53). -/
theorem decode_fieldsToWord {o : Field} {m : Mnemonic} (h : kindOfOpcode o = .known m) (d a b : Field) :
    decode (fieldsToWord o d a b) = .ok (instrOf m (fieldsToWord o d a b)) := by
  have hne : fieldsToWord o d a b ≠ 0#16 := by
    intro hz
    have ho : o = 0#4 := by rw [← opcodeOf_fieldsToWord o d a b, hz]; rfl
    rw [ho] at h
    cases h
  have hk : kindOf (fieldsToWord o d a b) = .known m := by rw [kindOf, if_neg hne, opcodeOf_fieldsToWord, h]
  exact (decode_ok_iff _ _).mpr ⟨m, hk, rfl⟩

/-- The same for a word written by its digits `0xodab`. -/
theorem decode_ofNat_fields {o : Field} {m : Mnemonic} (h : kindOfOpcode o = .known m) (d a b : Field) :
    decode (BitVec.ofNat 16 (o.toNat * 0x1000 + d.toNat * 0x100 + a.toNat * 0x10 + b.toNat)) =
      .ok (instrOf m (fieldsToWord o d a b)) := by
  rw [ofNat_fields, decode_fieldsToWord h]

section Digits
variable (d a b : Field)

theorem decode_add_digits :
    decode (BitVec.ofNat 16 (0x3000 + d.toNat * 0x100 + a.toNat * 0x10 + b.toNat)) = .ok (.add d a b) :=
  (decode_ofNat_fields (o := 0x3#4) (m := .add) rfl d a b).trans (by simp [instrOf])

theorem decode_addi_digits :
    decode (BitVec.ofNat 16 (0x4000 + d.toNat * 0x100 + a.toNat * 0x10 + b.toNat)) = .ok (.addi d a b) :=
  (decode_ofNat_fields (o := 0x4#4) (m := .addi) rfl d a b).trans (by simp [instrOf])

theorem decode_sub_digits :
    decode (BitVec.ofNat 16 (0x5000 + d.toNat * 0x100 + a.toNat * 0x10 + b.toNat)) = .ok (.sub d a b) :=
  (decode_ofNat_fields (o := 0x5#4) (m := .sub) rfl d a b).trans (by simp [instrOf])

theorem decode_subi_digits :
    decode (BitVec.ofNat 16 (0x6000 + d.toNat * 0x100 + a.toNat * 0x10 + b.toNat)) = .ok (.subi d a b) :=
  (decode_ofNat_fields (o := 0x6#4) (m := .subi) rfl d a b).trans (by simp [instrOf])

end Digits

/-- A value is masked to the field that is its remainder by 16 (R60). -/
theorem field_ofInt_eq {v : Int} {f : Field} (h : v % 16 = f.toNat) : BitVec.ofInt 4 v = f := by
  apply BitVec.eq_of_toNat_eq
  have := field_ofInt_toNat v
  omega

/-- Masking keeps a value that is a field already (R60). -/
@[simp] theorem field_ofInt_natCast_toNat (f : Field) : BitVec.ofInt 4 (f.toNat : Int) = f :=
  field_ofInt_eq (Int.emod_eq_of_lt (by omega) (by have := f.isLt; omega))

/-- A source literal is packed as the immediate that it equals mod 16 (R57, R60). -/
theorem packWord_literal (o d a k : Field) {literal : Int} (h : literal % 16 = k.toNat) :
    packWord o.toNat d.toNat a.toNat literal =
      BitVec.ofNat 16 (o.toNat * 0x1000 + d.toNat * 0x100 + a.toNat * 0x10 + k.toNat) := by
  simp only [packWord, field_ofInt_natCast_toNat, field_ofInt_eq h, ofNat_fields]

namespace Machine

/-- What an instruction that writes `x[d]` leaves in the rest of the state (R90). -/
theorem State.writeBack_frame (s : State) (d : RegIdx) (v : Word) :
    (∀ r, r ≠ d → (s.writeBack d v).readReg r = s.readReg r) ∧ (∀ y, (s.writeBack d v).word y = s.word y) ∧
      (s.writeBack d v).pc = s.pc + 1#16 ∧ (s.writeBack d v).runState = .running :=
  ⟨fun _ hr => s.writeBack_readReg_ne v hr, s.writeBack_word d v, s.writeBack_pc d v, s.writeBack_runState d v⟩

theorem exec_add (d a b : RegIdx) (s : State) :
    exec (.add d a b) s = .next (s.writeBack d (alu .add (s.readReg a) (s.readReg b))) := rfl

theorem exec_addi (d a : RegIdx) (k : Imm) (s : State) :
    exec (.addi d a k) s = .next (s.writeBack d (alu .add (s.readReg a) (zext16 k))) := rfl

theorem exec_sub (d a b : RegIdx) (s : State) :
    exec (.sub d a b) s = .next (s.writeBack d (alu .sub (s.readReg a) (s.readReg b))) := rfl

theorem exec_subi (d a : RegIdx) (k : Imm) (s : State) :
    exec (.subi d a k) s = .next (s.writeBack d (alu .sub (s.readReg a) (zext16 k))) := rfl

end Machine

/-- Settles O4: ADD writes back the ALU's sum of the two registers. -/
theorem addWritesSumModTwoPow16 : Obligations.AddWritesSumModTwoPow16 := by
  intro d a b
  refine ⟨decode_add_digits d a b, fun s => ⟨_, exec_add d a b s, ?_, s.writeBack_frame d _⟩⟩
  rw [State.writeBack_readReg_same, alu_add_toNat]

/-- Settles O5: ADDI writes back the ALU's sum of a register and the zero-extended field. -/
theorem addiAddsUnsignedImmediate : Obligations.AddiAddsUnsignedImmediate := by
  intro d a k
  refine ⟨decode_addi_digits d a k, fun _ h => packWord_literal 0x4#4 d a k h, fun s =>
    ⟨_, exec_addi d a k s, ?_, s.writeBack_frame d _⟩⟩
  rw [State.writeBack_readReg_same, alu_add_toNat, zext16_toNat]

/-- Settles O6: SUB writes back the ALU's difference, `op1` less `op2`. -/
theorem subWritesDifferenceModTwoPow16 : Obligations.SubWritesDifferenceModTwoPow16 := by
  intro d a b
  refine ⟨decode_sub_digits d a b, fun s => ⟨_, exec_sub d a b s, ?_, s.writeBack_frame d _⟩⟩
  rw [State.writeBack_readReg_same, alu_sub_toNat]

/-- Settles O7: SUBI writes back the ALU's difference of a register and the zero-extended field. -/
theorem subiSubtractsUnsignedImmediate : Obligations.SubiSubtractsUnsignedImmediate := by
  intro d a k
  refine ⟨decode_subi_digits d a k, fun _ h => packWord_literal 0x6#4 d a k h, fun s =>
    ⟨_, exec_subi d a k s, ?_, s.writeBack_frame d _⟩⟩
  rw [State.writeBack_readReg_same, alu_sub_toNat, zext16_toNat]

end Sys2Proof
end

section
/-! CMP and MOV (43_compare_move.md R130, R131): their words, their result and what they leave unchanged, and how JG
and JL read CMP's result (44_jumps.md R144). -/

namespace Sys2Proof

open Sys2Proof.Machine

theorem decode_cmp_digits (d a b : Field) :
    decode (BitVec.ofNat 16 (0x7000 + d.toNat * 0x100 + a.toNat * 0x10 + b.toNat)) = .ok (.cmp d a b) :=
  (decode_ofNat_fields (o := 0x7#4) (m := .cmp) rfl d a b).trans (by simp [instrOf])

theorem decode_mov_digits (d a x : Field) :
    decode (BitVec.ofNat 16 (0xC000 + d.toNat * 0x100 + a.toNat * 0x10 + x.toNat)) = .ok (.mov d a) :=
  (decode_ofNat_fields (o := 0xC#4) (m := .mov) rfl d a x).trans (by simp [instrOf])

/-- The assembler's MOV word: the ignored field `op2` is 0 (R131). -/
theorem encode_mov_digits (d a : Field) :
    encode (.mov d a) = BitVec.ofNat 16 (0xC000 + d.toNat * 0x100 + a.toNat * 0x10) :=
  (ofNat_fields 0xC#4 d a 0#4).symm

namespace Machine

theorem exec_cmp (d a b : RegIdx) (s : State) :
    exec (.cmp d a b) s = .next (s.writeBack d (alu .ltu (s.readReg a) (s.readReg b))) := rfl

theorem exec_mov (d a : RegIdx) (s : State) : exec (.mov d a) s = .next (s.writeBack d (s.readReg a)) := rfl

theorem exec_jg (l : Slot) (r : RegIdx) (s : State) :
    exec (.jg l r) s = .next (s.jumpIf (nonZero (s.readReg r)) l) := rfl

theorem exec_jl (l : Slot) (r : RegIdx) (s : State) :
    exec (.jl l r) s = .next (s.jumpIf (!nonZero (s.readReg r)) l) := rfl

theorem alu_ltu_toNat (a b : Word) : (alu .ltu a b).toNat = if a.toNat < b.toNat then 1 else 0 :=
  apply_ite BitVec.toNat (a.toNat < b.toNat) 1#16 0#16

/-- The `a_nz` signal of a comparison's result is the comparison (R85, R144). -/
theorem nonZero_alu_ltu (a b : Word) : nonZero (alu .ltu a b) = decide (a.toNat < b.toNat) := by
  rw [Bool.eq_iff_iff, nonZero_iff, alu_ltu_toNat]
  simp

theorem State.jumpIf_decide (s : State) (p : Prop) [Decidable p] (l : Slot) :
    s.jumpIf (decide p) l = if p then s.jump l else s.advance := by
  simp [State.jumpIf]

/-- A register written back to `x[d]` keeps its value, whether or not it is `x[d]` itself (R131). -/
theorem State.writeBack_readReg_source (s : State) (d a : RegIdx) :
    (s.writeBack d (s.readReg a)).readReg a = s.readReg a := by
  by_cases h : a = d
  · rw [h, writeBack_readReg_same]
  · exact s.writeBack_readReg_ne _ h

end Machine

/-- Settles O8: CMP writes back the ALU's unsigned comparison, and the test of JG and JL on that result is the
comparison itself. -/
theorem cmpWritesUnsignedLess : Obligations.CmpWritesUnsignedLess := by
  intro d a b
  refine ⟨decode_cmp_digits d a b, fun s => ⟨_, exec_cmp d a b s, ?_, ?_⟩⟩
  · rw [State.writeBack_readReg_same, alu_ltu_toNat]
  · obtain ⟨hregs, hmem, hpc, hrun⟩ := s.writeBack_frame d (alu .ltu (s.readReg a) (s.readReg b))
    refine ⟨hregs, hmem, hpc, hrun, fun l => ?_, fun l => ?_⟩
    · rw [exec_jg, State.writeBack_readReg_same, nonZero_alu_ltu, State.jumpIf_decide]
    · rw [exec_jl, State.writeBack_readReg_same, nonZero_alu_ltu, ← decide_not, State.jumpIf_decide]
      simp only [Nat.not_lt]

/-- Settles O12: MOV writes back the source register's whole value. -/
theorem movCopiesARegister : Obligations.MovCopiesARegister := by
  intro d a x
  exact ⟨decode_mov_digits d a x, encode_mov_digits d a, fun s =>
    ⟨_, exec_mov d a s, s.writeBack_readReg_same d _, s.writeBack_readReg_source d a, s.writeBack_frame d _⟩⟩

end Sys2Proof
end

section
/-! JMP (44_jumps.md R141): its words, its label, its target and what it leaves unchanged. -/

namespace Sys2Proof

open Sys2Proof.Machine

theorem decode_jmp_digits (l x y : Field) :
    decode (BitVec.ofNat 16 (0x8000 + l.toNat * 0x100 + x.toNat * 0x10 + y.toNat)) = .ok (.jmp l) :=
  (decode_ofNat_fields (o := 0x8#4) (m := .jmp) rfl l x y).trans (by simp [instrOf])

/-- A label address is packed as the slot that it equals mod 16 (R58, R60). -/
theorem packWord_label (o l a b : Field) {address : Int} (h : address % 16 = l.toNat) :
    packWord o.toNat address a.toNat b.toNat =
      BitVec.ofNat 16 (o.toNat * 0x1000 + l.toNat * 0x100 + a.toNat * 0x10 + b.toNat) := by
  simp only [packWord, field_ofInt_natCast_toNat, field_ofInt_eq h, ofNat_fields]

/-- The word of JMP to a label: both ignored fields are 0 (R141). -/
theorem packWord_jmp_digits (l : Field) {address : Nat} (h : address % 16 = l.toNat) :
    packWord 0x8 address 0 0 = BitVec.ofNat 16 (0x8000 + l.toNat * 0x100) :=
  packWord_label 0x8#4 l 0#4 0#4 (by exact_mod_cast h)

namespace Machine

theorem exec_jmp (l : Slot) (s : State) : exec (.jmp l) s = .next (s.jump l) := rfl

/-- A core that executes has fetched a word, so its step reports no soft stop: once Running, it Continued (R95). -/
theorem outcomeOf_continued {s t : State} (hs : s.executes) (ht : t.runState = .running) (oob : Bool) :
    outcomeOf oob s t = .continued := by
  obtain ⟨_, hpc⟩ := hs
  simp [outcomeOf, s.fetch_of_lt hpc, ht]

end Machine

/-- Settles O9: JMP is the jump to its slot, whatever the ignored fields hold. -/
theorem jmpGoesToItsSlot : Obligations.JmpGoesToItsSlot := by
  intro l x y
  refine ⟨decode_jmp_digits l x y, fun _ h => packWord_jmp_digits l h, fun s => ⟨s.jump l, exec_jmp l s, ?_⟩⟩
  exact ⟨s.jump_pc_toNat l, s.jump_runState l, s.jump_readReg l, s.jump_word l, fun hs =>
    outcomeOf_continued hs (s.jump_runState l)⟩

end Sys2Proof
end

section
/-! NOP and HALT (45_nop_halt.md R150, R151): their words, what they leave unchanged, and what a Halted core does at
each move of the host. -/

namespace Sys2Proof

open Sys2Proof.Machine

/-- NOP is not reached by an opcode field, only by the test of the whole word (R53, R54). -/
theorem kindOfOpcode_ne_nop (o : Field) : kindOfOpcode o ≠ .known .nop := by
  unfold kindOfOpcode
  split <;> simp

theorem decode_nop_iff (w : Word) : decode w = .ok .nop ↔ w = 0#16 := by
  constructor
  · intro h
    obtain ⟨m, hk, hi⟩ := (decode_ok_iff w .nop).mp h
    have hm : m = .nop := by rw [← instrOf_mnemonic m w, ← hi]; rfl
    by_contra hw
    rw [kindOf, if_neg hw, hm] at hk
    exact kindOfOpcode_ne_nop _ hk
  · rintro rfl
    rfl

/-- The leading digit of a word `0xF000` to `0xFFFF` (R51, R59). -/
theorem opcodeOf_of_ge_F000 {w : Word} (h : 0xF000 ≤ w.toNat) : opcodeOf w = 0xF#4 := by
  have hw := fieldsToWord_toNat (opcodeOf w) (destOf w) (op1Of w) (op2Of w)
  rw [fieldsToWord_of_word] at hw
  apply BitVec.eq_of_toNat_eq
  have := (opcodeOf w).isLt
  have := (destOf w).isLt
  have := (op1Of w).isLt
  have := (op2Of w).isLt
  change (opcodeOf w).toNat = 15
  omega

theorem decode_halt_of_ge_F000 {w : Word} (h : 0xF000 ≤ w.toNat) : decode w = .ok .halt := by
  rw [← fieldsToWord_of_word w, opcodeOf_of_ge_F000 h]
  exact decode_fieldsToWord (m := .halt) rfl _ _ _

namespace Machine

theorem exec_nop (s : State) : exec .nop s = .next s.advance := rfl

theorem exec_halt (s : State) : exec .halt s = .next s.halt := rfl

/-- A step into Halted reports Halted, whether it executed a HALT or met a terminal core (R95, R96). -/
theorem outcomeOf_halted {s t : State} (hs : s.executes ∨ s.runState.live = false) (ht : t.runState = .halted)
    (oob : Bool) : outcomeOf oob s t = .halted := by
  rcases hs with ⟨_, hpc⟩ | hlive
  · simp [outcomeOf, s.fetch_of_lt hpc, ht]
  · simp [outcomeOf, hlive, ht]

theorem State.live_of_halted {s : State} (h : s.runState = .halted) : s.runState.live = false := by
  rw [h]; rfl

/-- A Halted core does not execute its HALT again: a step keeps its state (R96, R151). -/
theorem stepWith_of_halted {s : State} (h : s.runState = .halted) (b : Bool) : stepWith b s = .next s := by
  have hlive := State.live_of_halted h
  have hex : ¬ s.executes := fun ⟨h', _⟩ => by simp [hlive] at h'
  simp [stepWith_of_not_executes hex, hlive]

theorem drive_step_of_halted {s : State} (h : s.runState = .halted) :
    drive s .step = .next (s, .stepped .halted) := by
  simp [drive, step_eq, stepWith_of_halted h, outcomeOf_halted (.inr (State.live_of_halted h)) h]

/-- Of the host's moves only reset and a load bring a core out of Halted (R151, R167). -/
theorem drive_leaves_halted {s u : State} {reply : HostReply} {m : HostMove} (h : s.runState = .halted)
    (hd : drive s m = .next (u, reply)) (hu : u.runState ≠ .halted) :
    m = .reset ∨ ∃ words, m = .load words := by
  cases m with
  | reset => exact .inl rfl
  | load words => exact .inr ⟨words, rfl⟩
  | step =>
    rw [drive_step_of_halted h] at hd
    cases hd
    exact absurd h hu

end Machine

/-- Settles O1: NOP is the advance of the state, and the zero word is the only one that decodes to it. -/
theorem nopOnlyAdvancesPc : Obligations.NopOnlyAdvancesPc := by
  refine ⟨(decode_nop_iff _).mpr rfl, rfl, fun w => (decode_nop_iff w).mp, fun s => ⟨_, exec_nop s, ?_⟩⟩
  exact ⟨s.advance_pc, s.advance_runState, s.advance_readReg, s.advance_word, fun hs =>
    outcomeOf_continued hs s.advance_runState⟩

/-- Settles O13: HALT only sets Halted, and a Halted core answers a step with itself. -/
theorem haltIsTerminal : Obligations.HaltIsTerminal := by
  refine ⟨fun _ => decode_halt_of_ge_F000, rfl, fun s => ⟨_, exec_halt s, ?_⟩⟩
  have ht := s.halt_runState
  exact ⟨ht, s.halt_pc, s.halt_readReg, s.halt_word, fun hs => outcomeOf_halted (.inl hs) ht,
    drive_step_of_halted ht, fun _ _ _ => drive_leaves_halted ht⟩

end Sys2Proof
end

section
/-! The decoder and the encoder (30_encoding.md sections 2, 4 and 5): they are inverse to each other up to ignored
fields, and a word's leading digit says which instruction it is. -/

namespace Sys2Proof

open Sys2Proof.Machine

/-- The opcode map of R53 read from the mnemonics. -/
theorem kindOfOpcode_opcode {m : Mnemonic} (hm : m ≠ .nop) : kindOfOpcode m.opcode = .known m := by
  cases m with
  | nop => exact absurd rfl hm
  | lw | sw | add | addi | sub | subi | cmp | jmp | jg | jl | mov | halt => rfl

/-- The opcode map of R53 read from the opcode values. -/
theorem opcode_of_kindOfOpcode {o : Field} {m : Mnemonic} (h : kindOfOpcode o = .known m) : o = m.opcode := by
  apply BitVec.eq_of_toNat_eq
  unfold kindOfOpcode at h
  split at h <;> cases h <;> assumption

/-- A non-zero word goes by its opcode field (R53, stage 2). -/
theorem kindOf_of_ne_zero {w : Word} (hw : w ≠ 0#16) : kindOf w = kindOfOpcode (opcodeOf w) := if_neg hw

/-- A mnemonic other than NOP is decoded from the opcode field alone. -/
theorem kindOf_eq_known_iff {m : Mnemonic} (hm : m ≠ .nop) (w : Word) :
    kindOf w = .known m ↔ opcodeOf w = m.opcode := by
  by_cases hw : w = 0#16
  · subst hw
    have hl : kindOf 0#16 = .known .nop := rfl
    have hr : kindOfOpcode (opcodeOf 0#16) = .illegal := rfl
    constructor
    · intro h
      rw [hl] at h
      cases h
      exact absurd rfl hm
    · intro h
      rw [h, kindOfOpcode_opcode hm] at hr
      cases hr
  · rw [kindOf_of_ne_zero hw]
    exact ⟨opcode_of_kindOfOpcode, fun h => by rw [h, kindOfOpcode_opcode hm]⟩

theorem decode_of_kindOf {w : Word} {m : Mnemonic} (h : kindOf w = .known m) : decode w = .ok (instrOf m w) :=
  (decode_ok_iff w _).mpr ⟨m, h, rfl⟩

/-- What a decoded instruction says of its word: the decoder's kind and the instruction's fields. -/
theorem kindOf_of_decode {w : Word} {i : Instr} (h : decode w = .ok i) :
    kindOf w = .known i.mnemonic ∧ i = instrOf i.mnemonic w := by
  obtain ⟨m, hk, rfl⟩ := (decode_ok_iff w i).mp h
  rw [instrOf_mnemonic]
  exact ⟨hk, rfl⟩

theorem opcodeOf_encode (i : Instr) : opcodeOf (encode i) = i.mnemonic.opcode := by
  cases i <;> exact opcodeOf_fieldsToWord _ _ _ _

/-- The fields of an encoded instruction are its operands (R53). -/
theorem instrOf_encode (i : Instr) : instrOf i.mnemonic (encode i) = i := by
  cases i <;> simp [Instr.mnemonic, encode, instrOf]

theorem kindOf_encode (i : Instr) : kindOf (encode i) = .known i.mnemonic := by
  by_cases hm : i.mnemonic = .nop
  · cases i <;> cases hm
    rfl
  · rw [kindOf_eq_known_iff hm, opcodeOf_encode]

theorem decode_encode (i : Instr) : decode (encode i) = .ok i := by
  rw [decode_of_kindOf (kindOf_encode i), instrOf_encode]

/-- Settles O17: the encoded word has the instruction's kind and its operands as fields. -/
theorem decodeOfEncode : Obligations.DecodeOfEncode := decode_encode

theorem opcodeOf_and (v w : Word) : opcodeOf (v &&& w) = opcodeOf v &&& opcodeOf w := BitVec.extractLsb'_and

/-- A mask of a word is a mask of each of its fields (R50). -/
theorem and_eq_fieldsToWord (v w : Word) : v &&& w = fieldsToWord (opcodeOf v &&& opcodeOf w)
    (destOf v &&& destOf w) (op1Of v &&& op1Of w) (op2Of v &&& op2Of w) := by
  rw [← fieldsToWord_of_word (v &&& w)]
  simp only [opcodeOf, destOf, op1Of, op2Of, BitVec.extractLsb'_and]

/-- Every row of R53 uses the whole opcode field. -/
theorem opcodeOf_usedBits (m : Mnemonic) : opcodeOf m.usedBits = BitVec.allOnes 4 := by cases m <;> rfl

theorem opcodeOf_and_usedBits (m : Mnemonic) (w : Word) : opcodeOf (w &&& m.usedBits) = opcodeOf w := by
  rw [opcodeOf_and, opcodeOf_usedBits, BitVec.and_allOnes]

theorem field_and_15 (f : Field) : f &&& 15#4 = f := BitVec.and_allOnes

/-- The operands of a row are the fields that its used bits cover, and an ignored field is encoded as 0 (R53, R55). -/
theorem encode_instrOf (m : Mnemonic) (w : Word) (hm : m ≠ .nop) : encode (instrOf m w) = fieldsToWord m.opcode
    (destOf w &&& destOf m.usedBits) (op1Of w &&& op1Of m.usedBits) (op2Of w &&& op2Of m.usedBits) := by
  cases m with
  | nop => exact absurd rfl hm
  | lw | sw | add | addi | sub | subi | cmp | jmp | jg | jl | mov | halt =>
    simp [encode, instrOf, Instr.mnemonic, Mnemonic.usedBits, destOf, op1Of, op2Of, field_and_15]

theorem encode_of_decode {w : Word} {i : Instr} (h : decode w = .ok i) : encode i = w &&& i.mnemonic.usedBits := by
  obtain ⟨hk, hi⟩ := kindOf_of_decode h
  by_cases hm : i.mnemonic = .nop
  · cases i <;> cases hm
    rw [(decode_nop_iff w).mp h]
    rfl
  · rw [and_eq_fieldsToWord, opcodeOf_usedBits, BitVec.and_allOnes, (kindOf_eq_known_iff hm w).mp hk,
      ← encode_instrOf _ _ hm, ← hi]

/-- Settles O18: field by field, a used field is kept and an ignored one is 0. -/
theorem encodeOfDecodeClearsIgnoredFields : Obligations.EncodeOfDecodeClearsIgnoredFields :=
  fun _ _ => encode_of_decode

/-- Settles O19: the two words have one opcode field, so one kind, and their instructions have one encoding. -/
theorem ignoredFieldsNeverMatter : Obligations.IgnoredFieldsNeverMatter := by
  intro w v i h hv
  obtain ⟨hk, -⟩ := kindOf_of_decode h
  have hkv : kindOf v = .known i.mnemonic := by
    by_cases hm : i.mnemonic = .nop
    · have hw : v = w := by
        rw [hm] at hv
        exact (BitVec.and_allOnes (x := v)).symm.trans (hv.trans (BitVec.and_allOnes (x := w)))
      rw [hw, hk]
    · rw [kindOf_eq_known_iff hm] at hk ⊢
      rw [← opcodeOf_and_usedBits i.mnemonic, hv, opcodeOf_and_usedBits, hk]
  have hd := decode_of_kindOf hkv
  have he : encode (instrOf i.mnemonic v) = encode i := by
    rw [encode_of_decode hd, instrOf_mnemonic, hv, encode_of_decode h]
  have hi : instrOf i.mnemonic v = i := by
    have := decode_encode (instrOf i.mnemonic v)
    rw [he, decode_encode] at this
    exact (Except.ok.inj this).symm
  rw [hd, hi]

/-- The opcode field is the leading hexadecimal digit (R51). -/
theorem opcodeOf_toNat (w : Word) : (opcodeOf w).toNat = w.toNat / 4096 := by
  have := w.isLt
  rw [opcodeOf, BitVec.extractLsb'_toNat, Nat.shiftRight_eq_div_pow]
  omega

theorem ne_zero_of_toNat {w : Word} (h : w.toNat ≠ 0) : w ≠ 0#16 := fun hw => h (by rw [hw]; rfl)

theorem decode_of_known_digit {w : Word} {m : Mnemonic} (h : kindOfOpcode (opcodeOf w) = .known m) :
    decode w = .ok (instrOf m w) := by
  have hd := decode_fieldsToWord h (destOf w) (op1Of w) (op2Of w)
  rwa [fieldsToWord_of_word] at hd

theorem kindOfOpcode_illegal : ∀ o : Field, o.toNat ∈ [0x0, 0xB, 0xD, 0xE] → kindOfOpcode o = .illegal := by
  decide

/-- A non-zero word whose leading digit no instruction has is rejected with the word (R59). -/
theorem decode_of_unassigned_digit {w : Word} (hw : w ≠ 0#16) (h : w.toNat / 4096 ∈ [0x0, 0xB, 0xD, 0xE]) :
    decode w = .error (.unassignedOpcode w) := by
  rw [← opcodeOf_toNat] at h
  simp only [decode, kindOf_of_ne_zero hw, kindOfOpcode_illegal _ h]

/-- The ten instructions whose leading digits follow one another (R53). -/
theorem kindOfOpcode_one_to_ten : ∀ o : Field, 0x1 ≤ o.toNat → o.toNat ≤ 0xA →
    ([.lw, .sw, .add, .addi, .sub, .subi, .cmp, .jmp, .jg, .jl][o.toNat - 1]?).map Kind.known =
      some (kindOfOpcode o) := by
  decide

theorem decode_of_digit_one_to_ten {w : Word} (hlo : 0x1000 ≤ w.toNat) (hhi : w.toNat ≤ 0xAFFF) :
    ∃ i, decode w = .ok i ∧
      [.lw, .sw, .add, .addi, .sub, .subi, .cmp, .jmp, .jg, .jl][w.toNat / 0x1000 - 1]? = some i.mnemonic := by
  have ho := opcodeOf_toNat w
  obtain ⟨m, hget, hk⟩ := Option.map_eq_some_iff.mp (kindOfOpcode_one_to_ten (opcodeOf w) (by omega) (by omega))
  refine ⟨instrOf m w, decode_of_known_digit hk.symm, ?_⟩
  rw [instrOf_mnemonic, ← hget, ho]

theorem decode_of_digit_C {w : Word} (h : w.toNat / 4096 = 0xC) : decode w = .ok (.mov (destOf w) (op1Of w)) := by
  have ho : opcodeOf w = 0xC#4 := BitVec.eq_of_toNat_eq ((opcodeOf_toNat w).trans h)
  exact decode_of_known_digit (m := .mov) (by rw [ho]; rfl)

/-- Settles O20: each range is the words of one leading digit, or of several that decode alike. -/
theorem wordPartition : Obligations.WordPartition := by
  intro w
  refine ⟨fun h => ?_, fun h => ?_, fun h => ?_, fun h => ?_, fun h => ?_, fun h => ?_, fun h => ?_⟩
  · exact (decode_nop_iff w).mpr (BitVec.eq_of_toNat_eq h)
  · exact decode_of_unassigned_digit (ne_zero_of_toNat (by omega)) (by simp; omega)
  · exact decode_of_digit_one_to_ten h.1 h.2
  · exact decode_of_unassigned_digit (ne_zero_of_toNat (by omega)) (by simp; omega)
  · exact ⟨_, decode_of_digit_C (by omega), rfl⟩
  · exact decode_of_unassigned_digit (ne_zero_of_toNat (by omega)) (by simp; omega)
  · exact decode_halt_of_ge_F000 h

theorem legal_iff (w : Word) : w.legal = true ↔ w.toNat = 0 ∨ (0x1000 ≤ w.toNat ∧ w.toNat ≤ 0xAFFF) ∨
    (0xC000 ≤ w.toNat ∧ w.toNat ≤ 0xCFFF) ∨ 0xF000 ≤ w.toNat := by
  simp [Word.legal, or_assoc]

/-- The ranges of R59 say which words decode. -/
theorem legal_iff_decode (w : Word) : w.legal = true ↔ ∃ i, decode w = .ok i := by
  obtain ⟨hnop, hlow, hten, hB, hC, hDE, hhalt⟩ := wordPartition w
  rw [legal_iff]
  constructor
  · rintro (h | h | h | h)
    · exact ⟨_, hnop h⟩
    · obtain ⟨i, hd, -⟩ := hten h
      exact ⟨i, hd⟩
    · obtain ⟨i, hd, -⟩ := hC h
      exact ⟨i, hd⟩
    · exact ⟨_, hhalt h⟩
  · rintro ⟨i, hi⟩
    by_contra hn
    have herr : decode w = .error (.unassignedOpcode w) := by
      have : (0x0001 ≤ w.toNat ∧ w.toNat ≤ 0x0FFF) ∨ (0xB000 ≤ w.toNat ∧ w.toNat ≤ 0xBFFF) ∨
          (0xD000 ≤ w.toNat ∧ w.toNat ≤ 0xEFFF) := by omega
      rcases this with h | h | h
      · exact hlow h
      · exact hB h
      · exact hDE h
    rw [hi] at herr
    cases herr

theorem legal_eq_false_of_decode_error {w : Word} {e : DecodeError} (h : decode w = .error e) : w.legal = false := by
  rw [← Bool.not_eq_true, legal_iff_decode, h]
  rintro ⟨i, hi⟩
  cases hi

/-- Settles O16: the words are closed terms that the decoder evaluates. -/
theorem exampleWordsDecode : Obligations.ExampleWordsDecode := by
  unfold Obligations.ExampleWordsDecode
  decide

end Sys2Proof
end

section
/-! LW, SW (41_load_store.md R110, R111) and the conditional jumps JG, JL (44_jumps.md R142, R143): their words, their
result, their fault and what they leave unchanged. -/

namespace Sys2Proof

open Sys2Proof.Machine

section Digits
variable (d a x : Field)

theorem decode_lw_digits :
    decode (BitVec.ofNat 16 (0x1000 + d.toNat * 0x100 + a.toNat * 0x10 + x.toNat)) = .ok (.lw d a) :=
  (decode_ofNat_fields (o := 0x1#4) (m := .lw) rfl d a x).trans (by simp [instrOf])

theorem decode_sw_digits :
    decode (BitVec.ofNat 16 (0x2000 + d.toNat * 0x100 + a.toNat * 0x10 + x.toNat)) = .ok (.sw d a) :=
  (decode_ofNat_fields (o := 0x2#4) (m := .sw) rfl d a x).trans (by simp [instrOf])

theorem decode_jg_digits :
    decode (BitVec.ofNat 16 (0x9000 + d.toNat * 0x100 + a.toNat * 0x10 + x.toNat)) = .ok (.jg d a) :=
  (decode_ofNat_fields (o := 0x9#4) (m := .jg) rfl d a x).trans (by simp [instrOf])

theorem decode_jl_digits :
    decode (BitVec.ofNat 16 (0xA000 + d.toNat * 0x100 + a.toNat * 0x10 + x.toNat)) = .ok (.jl d a) :=
  (decode_ofNat_fields (o := 0xA#4) (m := .jl) rfl d a x).trans (by simp [instrOf])

end Digits

namespace Machine

section LoadStore
variable (d : RegIdx) {a : RegIdx} {s : State}

theorem exec_lw_of_lt (h : (s.readReg a).toNat < 1024) :
    exec (.lw d a) s = .next (s.writeBack d (s.word (s.readReg a).toNat)) := by
  rcases execLw_cases d a s with ⟨_, he⟩ | ⟨hge, _⟩
  · exact he
  · omega

theorem exec_sw_of_lt (h : (s.readReg a).toNat < 1024) :
    exec (.sw d a) s = .next (s.setWord (s.readReg a).toNat (s.readReg d)).advance := by
  rcases execSw_cases d a s with ⟨_, he⟩ | ⟨hge, _⟩
  · exact he
  · omega

/-- A bad data address faults before anything is read or written (R32). -/
theorem exec_of_badAddress {d : RegIdx} {i : Instr} (hi : i = .lw d a ∨ i = .sw d a)
    (h : 1024 ≤ (s.readReg a).toNat) :
    exec i s = .next (s.raise (.dataAddressOutOfRange (s.readReg a) s.pc)) := by
  rcases hi with rfl | rfl
  · rcases execLw_cases d a s with ⟨hlt, _⟩ | ⟨_, he⟩
    · omega
    · exact he
  · rcases execSw_cases d a s with ⟨hlt, _⟩ | ⟨_, he⟩
    · omega
    · exact he

end LoadStore

theorem nonZero_eq_decide (a : Word) : nonZero a = decide (a.toNat ≠ 0) := by
  rw [Bool.eq_iff_iff, nonZero_iff, decide_eq_true_iff]

theorem exec_jg_eq_ite (l : Slot) (a : RegIdx) (s : State) :
    exec (.jg l a) s = .next (if (s.readReg a).toNat = 0 then s.advance else s.jump l) := by
  rw [exec_jg, nonZero_eq_decide, State.jumpIf_decide, ite_not]

theorem exec_jl_eq_ite (l : Slot) (a : RegIdx) (s : State) :
    exec (.jl l a) s = .next (if (s.readReg a).toNat = 0 then s.jump l else s.advance) := by
  rw [exec_jl, nonZero_eq_decide, ← decide_not, State.jumpIf_decide]
  simp only [ne_eq, not_not]

/-- What `next` and `jump` leave of the state: everything but `pc` and `run_state` (R90). -/
theorem State.advance_frame (s : State) :
    (∀ r, s.advance.readReg r = s.readReg r) ∧ (∀ y, s.advance.word y = s.word y) ∧ s.advance.runState = .running :=
  ⟨s.advance_readReg, s.advance_word, s.advance_runState⟩

theorem State.jump_frame (s : State) (l : Slot) :
    (∀ r, (s.jump l).readReg r = s.readReg r) ∧ (∀ y, (s.jump l).word y = s.word y) ∧
      (s.jump l).runState = .running :=
  ⟨s.jump_readReg l, s.jump_word l, s.jump_runState l⟩

end Machine

/-- Settles O2: LW with a good address writes back the word there. -/
theorem lwLoadsTheAddressedWord : Obligations.LwLoadsTheAddressedWord := by
  intro d a x
  refine ⟨decode_lw_digits d a x, fun s h => ⟨_, exec_lw_of_lt d h, ?_⟩⟩
  obtain ⟨hregs, hmem, hpc, hrun⟩ := s.writeBack_frame d (s.word (s.readReg a).toNat)
  exact ⟨s.writeBack_readReg_same d _, hregs, hmem, hpc, hrun⟩

/-- Settles O3: SW with a good address sets the word there and advances. -/
theorem swStoresOneWord : Obligations.SwStoresOneWord := by
  intro d a x
  refine ⟨decode_sw_digits d a x, fun s h => ⟨_, exec_sw_of_lt d h, ?_⟩⟩
  exact ⟨s.word_setWord_same _ _, fun y hy => s.word_setWord_ne _ hy, fun _ => rfl, rfl, rfl⟩

/-- Settles O10: JG is the jump when its register is not 0, else the advance. -/
theorem jgTakenIffRegisterNonZero : Obligations.JgTakenIffRegisterNonZero := by
  intro l a x
  refine ⟨decode_jg_digits l a x, fun s => ?_⟩
  rw [exec_jg_eq_ite]
  by_cases h : (s.readReg a).toNat = 0
  · rw [if_pos h]
    exact ⟨_, rfl, fun hpos => absurd h (by omega), fun _ => s.advance_pc, s.advance_frame⟩
  · rw [if_neg h]
    exact ⟨_, rfl, fun _ => s.jump_pc_toNat l, fun h0 => absurd h0 h, s.jump_frame l⟩

/-- Settles O11: JL is the jump when its register is 0, else the advance, where JG is the other of the two. -/
theorem jlTakenIffRegisterZero : Obligations.JlTakenIffRegisterZero := by
  intro l a x
  refine ⟨decode_jl_digits l a x, fun s => ?_⟩
  rw [exec_jl_eq_ite, exec_jg_eq_ite]
  by_cases h : (s.readReg a).toNat = 0
  · obtain ⟨hregs, hmem, hrun⟩ := s.jump_frame l
    rw [if_pos h, if_pos h]
    exact ⟨_, rfl, fun _ => s.jump_pc_toNat l, fun h0 => absurd h h0, hregs, hmem, hrun,
      fun _ => ⟨rfl, rfl⟩, fun h0 => absurd h h0⟩
  · obtain ⟨hregs, hmem, hrun⟩ := s.advance_frame
    rw [if_neg h, if_neg h]
    exact ⟨_, rfl, fun h0 => absurd h0 h, fun _ => s.advance_pc, hregs, hmem, hrun,
      fun h0 => absurd h0 h, fun _ => ⟨rfl, rfl⟩⟩

/-- Settles O14: both raise the fault and do nothing else. -/
theorem dataFaultIsPrecise : Obligations.DataFaultIsPrecise := by
  intro s d a i hi h
  exact ⟨_, exec_of_badAddress hi h, s.raise_runState _, s.raise_pc _, s.raise_readReg _, s.raise_word _⟩

end Sys2Proof
end

section
/-! What a step can do with its guards, said once: `Ends` for an instruction, `StepEnds` for a step (40_step_cycle.md
R90). The claims about every step are read off these. -/

namespace Sys2Proof.Machine

/-- The instruction makes no data access outside memory (R32). -/
def State.dataInRange (s : State) (i : Instr) : Prop :=
  ∀ d a, i = .lw d a ∨ i = .sw d a → (s.readReg a).toNat < 1024

theorem State.dataInRange_of_ne {s : State} {i : Instr} (hlw : i.mnemonic ≠ .lw) (hsw : i.mnemonic ≠ .sw) :
    s.dataInRange i := by
  rintro d a (rfl | rfl)
  · exact absurd rfl hlw
  · exact absurd rfl hsw

/-- How an instruction ends (R90, S5 and S7), and which instruction it then was. -/
inductive Ends (s : State) : Instr → State → Prop where
  | writes {i : Instr} {d : RegIdx} (v : Word) (hd : i.destReg = some d) (hr : s.dataInRange i) :
      Ends s i (s.writeBack d v)
  | stores (d : RegIdx) {a : RegIdx} (ha : (s.readReg a).toNat < 1024) :
      Ends s (.sw d a) (s.setWord (s.readReg a).toNat (s.readReg d)).advance
  | advances {i : Instr} (hh : i ≠ .halt) (hr : s.dataInRange i) : Ends s i s.advance
  | jumps {i : Instr} (l : Slot) (hh : i ≠ .halt) (hr : s.dataInRange i) : Ends s i (s.jump l)
  | halts : Ends s .halt s.halt
  | badAddress {i : Instr} {d a : RegIdx} (hi : i = .lw d a ∨ i = .sw d a) (ha : 1024 ≤ (s.readReg a).toNat) :
      Ends s i (s.raise (.dataAddressOutOfRange (s.readReg a) s.pc))

theorem jumpIf_ends {s : State} {i : Instr} (b : Bool) (l : Slot) (hh : i ≠ .halt) (hr : s.dataInRange i) :
    Ends s i (s.jumpIf b l) := by
  cases b
  · exact .advances hh hr
  · exact .jumps l hh hr

/-- Every instruction ends in one of these ways. -/
theorem exec_ends (i : Instr) (s : State) : ∃ t, exec i s = .next t ∧ Ends s i t := by
  have free : ∀ {i : Instr}, i.mnemonic ≠ .lw → i.mnemonic ≠ .sw → s.dataInRange i := State.dataInRange_of_ne
  cases i with
  | lw d a =>
    rcases Nat.lt_or_ge (s.readReg a).toNat 1024 with h | h
    · exact ⟨_, exec_lw_of_lt d h, .writes _ rfl (by rintro _ _ (hi | hi) <;> cases hi; exact h)⟩
    · exact ⟨_, exec_of_badAddress (.inl rfl) h, .badAddress (.inl rfl) h⟩
  | sw d a =>
    rcases Nat.lt_or_ge (s.readReg a).toNat 1024 with h | h
    · exact ⟨_, exec_sw_of_lt d h, .stores d h⟩
    · exact ⟨_, exec_of_badAddress (.inr rfl) h, .badAddress (.inr rfl) h⟩
  | add d a b => exact ⟨_, exec_add d a b s, .writes _ rfl (free nofun nofun)⟩
  | addi d a k => exact ⟨_, exec_addi d a k s, .writes _ rfl (free nofun nofun)⟩
  | sub d a b => exact ⟨_, exec_sub d a b s, .writes _ rfl (free nofun nofun)⟩
  | subi d a k => exact ⟨_, exec_subi d a k s, .writes _ rfl (free nofun nofun)⟩
  | cmp d a b => exact ⟨_, exec_cmp d a b s, .writes _ rfl (free nofun nofun)⟩
  | mov d a => exact ⟨_, exec_mov d a s, .writes _ rfl (free nofun nofun)⟩
  | jmp l => exact ⟨_, exec_jmp l s, .jumps l nofun (free nofun nofun)⟩
  | jg l a => exact ⟨_, exec_jg l a s, jumpIf_ends _ l nofun (free nofun nofun)⟩
  | jl l a => exact ⟨_, exec_jl l a s, jumpIf_ends _ l nofun (free nofun nofun)⟩
  | nop => exact ⟨_, exec_nop s, .advances nofun (free nofun nofun)⟩
  | halt => exact ⟨_, exec_halt s, .halts⟩

namespace Ends
variable {i : Instr} {s t : State}

theorem halted_iff (h : Ends s i t) : t.runState = .halted ↔ i = .halt := by
  cases h with
  | writes v hd hr => exact ⟨nofun, by rintro rfl; cases hd⟩
  | stores d ha => exact ⟨nofun, nofun⟩
  | advances hh hr => exact ⟨nofun, fun hi => absurd hi hh⟩
  | jumps l hh hr => exact ⟨nofun, fun hi => absurd hi hh⟩
  | halts => exact ⟨fun _ => rfl, fun _ => rfl⟩
  | badAddress hi ha => exact ⟨nofun, by rintro rfl; rcases hi with hi | hi <;> cases hi⟩

/-- An instruction that faults is the only one to leave its data range. -/
theorem faulted_iff (h : Ends s i t) : (∃ r, t.runState = .faulted r) ↔
    ∃ d a, (i = .lw d a ∨ i = .sw d a) ∧ 1024 ≤ (s.readReg a).toNat := by
  have good : s.dataInRange i → ¬ ∃ d a, (i = .lw d a ∨ i = .sw d a) ∧ 1024 ≤ (s.readReg a).toNat :=
    fun hr ⟨d, a, hi, ha⟩ => absurd (hr d a hi) (by omega)
  cases h with
  | writes v hd hr => exact iff_of_false nofun (good hr)
  | stores d ha => exact iff_of_false nofun (by rintro ⟨_, _, hi | hi, h'⟩ <;> cases hi; omega)
  | advances hh hr => exact iff_of_false nofun (good hr)
  | jumps l hh hr => exact iff_of_false nofun (good hr)
  | halts => exact iff_of_false nofun (by rintro ⟨_, _, hi | hi, _⟩ <;> cases hi)
  | badAddress hi ha => exact iff_of_true ⟨_, rfl⟩ ⟨_, _, hi, ha⟩

theorem ne_ready (h : Ends s i t) : t.runState ≠ .ready := by cases h <;> nofun

end Ends

/-- How a step ends (R90): a terminal core stays (S1, S2); a core past the end of memory stops (S3); an illegal word
faults; else the instruction decoded from the fetched word ends as it does. -/
inductive StepEnds (b : Bool) (s : State) : State → Prop where
  | stays (hl : s.runState.live = false) : StepEnds b s s
  | pastEnd (hl : s.runState.live = true) (hp : 1024 ≤ s.pc.toNat) : StepEnds b s (s.offEnd b)
  | illegal {e : DecodeError} (hx : s.executes) (hd : decode s.current = .error e) :
      StepEnds b s (s.raise (.unknownOpcode s.current s.pc))
  | runs {i : Instr} {t : State} (hx : s.executes) (hd : decode s.current = .ok i) (he : Ends s i t) :
      StepEnds b s t

/-- Every step ends in one of these ways. -/
theorem stepWith_ends (b : Bool) (s : State) : ∃ t, stepWith b s = .next t ∧ StepEnds b s t := by
  rcases stepWith_cases b s with ⟨hl, h⟩ | ⟨hl, hp, h⟩ | ⟨hl, hp, ⟨i, hd, h⟩ | ⟨e, hd, h⟩⟩
  · exact ⟨_, h, .stays hl⟩
  · exact ⟨_, h, .pastEnd hl hp⟩
  · obtain ⟨t, ht, he⟩ := exec_ends i s
    exact ⟨t, h.trans ht, .runs ⟨hl, hp⟩ hd he⟩
  · exact ⟨_, h, .illegal ⟨hl, hp⟩ hd⟩

theorem stepEnds_of_stepWith {b : Bool} {s t : State} (h : stepWith b s = .next t) : StepEnds b s t := by
  obtain ⟨u, hu, he⟩ := stepWith_ends b s
  rw [hu] at h
  cases h
  exact he

theorem not_executes_of_not_live {s : State} (hl : s.runState.live = false) : ¬ s.executes := fun hx => by
  simp [hx.1] at hl

theorem not_executes_of_pastEnd {s : State} (hp : 1024 ≤ s.pc.toNat) : ¬ s.executes :=
  fun hx => absurd hx.2 (by simpa using hp)

/-- A core that executes a legal word runs it (R90, S5). -/
theorem stepWith_of_decode {b : Bool} {s : State} {i : Instr} (hx : s.executes) (hd : decode s.current = .ok i) :
    stepWith b s = exec i s := by
  rw [stepWith_of_executes hx, hd]

theorem stepWith_of_decode_error {b : Bool} {s : State} {e : DecodeError} (hx : s.executes)
    (hd : decode s.current = .error e) : stepWith b s = .next (s.raise (.unknownOpcode s.current s.pc)) := by
  rw [stepWith_of_executes hx, hd]

theorem stepWith_of_not_live {b : Bool} {s : State} (hl : s.runState.live = false) : stepWith b s = .next s := by
  rw [stepWith_of_not_executes (not_executes_of_not_live hl), hl]
  rfl

theorem stepWith_of_pastEnd {b : Bool} {s : State} (hl : s.runState.live = true) (hp : 1024 ≤ s.pc.toNat) :
    stepWith b s = .next (s.offEnd b) := by
  rw [stepWith_of_not_executes (not_executes_of_pastEnd hp), hl]
  rfl

end Sys2Proof.Machine
end

section
/-! The claims about every step (40_step_cycle.md R90 to R97): what it runs, that it answers, and what it does to
`run_state` and `pc`. -/

namespace Sys2Proof

open Sys2Proof.Machine

namespace Machine

/-- The placing leaves a core that executes the placed word (log entry 9). -/
theorem State.placeWord_executes (s : State) (w : Word) : (s.placeWord w).executes ∧ (s.placeWord w).current = w := by
  have placed : ∀ t : State, t.executes →
      (t.setWord t.pc.toNat w).executes ∧ (t.setWord t.pc.toNat w).current = w := fun t ht =>
    ⟨ht, t.word_setWord_same t.pc.toNat w⟩
  unfold placeWord
  by_cases hx : s.executes
  · rw [if_pos (by simpa [State.executes] using hx)]
    exact placed s hx
  · rw [if_neg (by simpa [State.executes] using hx)]
    exact placed s.makeReady ⟨rfl, by simp⟩

/-- A faulted core reports its reason whether the fault is new or old (R95, R97). -/
theorem outcomeOf_faulted {oob : Bool} {s t : State} {r : FaultReason}
    (hs : s.executes ∨ s.runState.live = false ∨ oob = true) (ht : t.runState = .faulted r) :
    outcomeOf oob s t = .faulted r := by
  rcases hs with ⟨_, hpc⟩ | hlive | rfl
  · simp [outcomeOf, s.fetch_of_lt hpc, ht]
  · simp [outcomeOf, hlive, ht]
  · simp [outcomeOf, ht]

/-- The soft stop is reported as such, whatever the state after it (R91). -/
theorem outcomeOf_softStop {s : State} (hl : s.runState.live = true) (hp : 1024 ≤ s.pc.toNat) (t : State) :
    outcomeOf false s t = .pcOutOfBounds := by
  simp [outcomeOf, hl, s.fetch_of_ge hp]

theorem drive_step {s t : State} (h : step s = .next t) :
    drive s .step = .next (t, .stepped (outcomeOf false s t)) := by
  simp only [drive, h]
  rfl

/-- LW and SW advance when their address is good and keep `pc` when it is not (R14, decision D7). -/
theorem pc_toNat_of_access {i : Instr} {d a : RegIdx} {s t : State} (hi : i = .lw d a ∨ i = .sw d a)
    (hp : s.pc.toNat < 1024) (h : exec i s = .next t) :
    t.pc.toNat = if (s.readReg a).toNat < 1024 then s.pc.toNat + 1 else s.pc.toNat := by
  rcases Nat.lt_or_ge (s.readReg a).toNat 1024 with ha | ha
  · rw [if_pos ha, ← s.advance_pc_toNat hp]
    rcases hi with rfl | rfl
    · rw [exec_lw_of_lt d ha] at h; cases h; rfl
    · rw [exec_sw_of_lt d ha] at h; cases h; rfl
  · rw [if_neg (Nat.not_lt.mpr ha)]
    rw [exec_of_badAddress hi ha] at h
    cases h
    rfl

theorem RunState.ne_terminal_of_live {r : RunState} (h : r.live = true) : r ≠ .halted ∧ ∀ q, r ≠ .faulted q := by
  cases r with
  | halted => cases h
  | faulted q => cases h
  | ready | running => exact ⟨nofun, nofun⟩

theorem State.live_of_faulted {s : State} {r : FaultReason} (h : s.runState = .faulted r) :
    s.runState.live = false := by
  rw [h]; rfl

end Machine

theorem decode_of_decodeTableWord {n w : Nat} {i : Instr} (h : decodeTableWord n w = some i) :
    decode (BitVec.ofNat 16 (w % 2 ^ n)) = .ok i := by
  unfold decodeTableWord at h
  cases hd : decode (BitVec.ofNat 16 (w % 2 ^ n)) with
  | ok j => rw [hd] at h; cases h; rfl
  | error e => rw [hd] at h; cases h

/-- Settles O15: such a word decodes to nothing, so the step raises its fault. -/
theorem unassignedOpcodeFaults : Obligations.UnassignedOpcodeFaults := by
  intro s hx hw hdigit
  exact ⟨_, stepWith_of_decode_error hx (decode_of_unassigned_digit hw hdigit), s.raise_runState _, s.raise_pc _,
    s.raise_readReg _, s.raise_word _⟩

/-- Settles O22: past the clauses S1 to S3 the step is the instruction. -/
theorem stepRunsTheDecodedInstruction : Obligations.StepRunsTheDecodedInstruction :=
  fun _ _ hl hp hd => stepWith_of_decode ⟨hl, hp⟩ hd

/-- Settles O23: the placed word is the current word of a core that executes. -/
theorem placedWordIsRunNext : Obligations.PlacedWordIsRunNext := by
  intro s w i h
  obtain ⟨hx, hcur⟩ := s.placeWord_executes (BitVec.ofNat 16 (w % 2 ^ 16))
  exact stepWith_of_decode hx (hcur ▸ decode_of_decodeTableWord h)

/-- Settles O24: every clause of the step answers a next state. -/
theorem everyStepAnswersANextState : Obligations.EveryStepAnswersANextState := by
  have answers (b : Bool) (s : State) : ∃ t, stepWith b s = .next t := by
    obtain ⟨t, ht, -⟩ := stepWith_ends b s
    exact ⟨t, ht⟩
  exact fun oob s => ⟨answers oob s, answers _ s⟩

/-- Settles O25: clause S3 at both values of `OOB_IS_FAULT`. -/
theorem pastTheEndIsASoftStop : Obligations.PastTheEndIsASoftStop := by
  intro s hl hp
  refine ⟨?_, s.offEnd true, stepWith_of_pastEnd hl hp, rfl, outcomeOf_faulted (.inr (.inr rfl)) rfl, rfl,
    s.raise_readReg _, s.raise_word _⟩
  have h : step s = .next s := stepWith_of_pastEnd hl hp
  rw [drive_step h, outcomeOf_softStop hl hp]

/-- Settles O26: clauses S1 and S2. -/
theorem terminalCoreIsFrozen : Obligations.TerminalCoreIsFrozen := by
  refine fun oob s => ⟨fun h => ?_, fun r h => ?_⟩
  · have hl := State.live_of_halted h
    exact ⟨stepWith_of_not_live hl, outcomeOf_halted (.inr hl) h oob⟩
  · have hl := State.live_of_faulted h
    exact ⟨stepWith_of_not_live hl, outcomeOf_faulted (.inr (.inl hl)) h⟩

/-- Settles O27: `run_state` in each way a step can end. -/
theorem runStateTransitions : Obligations.RunStateTransitions := by
  intro oob s t h
  cases stepEnds_of_stepWith h with
  | stays hl =>
    have hx := not_executes_of_not_live hl
    have hr : s.runState ≠ .ready := fun hr => by rw [hr] at hl; cases hl
    simp [hx, hl, hr]
  | pastEnd hl hp =>
    have hx := not_executes_of_pastEnd hp
    obtain ⟨hh, hf⟩ := RunState.ne_terminal_of_live hl
    cases oob <;> simp [hx, hl, hp, hh, hf]
  | illegal hx hd =>
    obtain ⟨hh, hf⟩ := RunState.ne_terminal_of_live hx.1
    simp [hx, hd, hh, hf]
  | runs hx hd he =>
    obtain ⟨hh, hf⟩ := RunState.ne_terminal_of_live hx.1
    have hp : ¬ 1024 ≤ s.pc.toNat := fun hp => not_executes_of_pastEnd hp hx
    simp [hx, hd, hh, hf, hp, he.halted_iff, he.faulted_iff, he.ne_ready]

/-- Settles O28: the `pc` of each instruction's end. -/
theorem pcChangesByTheTable : Obligations.PcChangesByTheTable := by
  intro s t h
  refine ⟨fun hx => ?_, fun hx e hd => ?_, fun hx i hd => ?_⟩
  · have hs : step s = .next s := by
      rw [step_eq, stepWith_of_not_executes hx, State.offEnd_false, ite_self]
    rw [hs] at h
    cases h
    rfl
  · rw [step_eq, stepWith_of_decode_error hx hd] at h
    cases h
    rfl
  · rw [step_eq, stepWith_of_decode hx hd] at h
    have hinc : (s.pc + 1#16).toNat = s.pc.toNat + 1 := s.advance_pc_toNat hx.2
    cases i with
    | halt => cases h; rfl
    | jmp l => cases h; exact s.jump_pc_toNat l
    | jg l a =>
      rw [exec_jg_eq_ite] at h
      cases h
      rw [apply_ite (fun u : State => u.pc.toNat), s.advance_pc, s.jump_pc_toNat, hinc]
    | jl l a =>
      rw [exec_jl_eq_ite] at h
      cases h
      rw [apply_ite (fun u : State => u.pc.toNat), s.advance_pc, s.jump_pc_toNat, hinc]
    | lw d a => exact pc_toNat_of_access (.inl rfl) hx.2 h
    | sw d a => exact pc_toNat_of_access (.inr rfl) hx.2 h
    | nop | add _ _ _ | addi _ _ _ | sub _ _ _ | subi _ _ _ | cmp _ _ _ | mov _ _ => cases h; exact hinc

end Sys2Proof
end

section
/-! What a step reads and writes (10_state.md R10, R11, R21; 40_step_cycle.md R93; 20_memory.md R42). -/

namespace Sys2Proof

open Sys2Proof.Machine

namespace Machine

/-- Where a step leaves its result: nowhere, in the destination of the decoded instruction, or in the word that the
decoded SW addresses (R93). -/
inductive StepWrites (s t : State) : Prop where
  | nothing (hregs : t.regs = s.regs) (hmem : t.mem = s.mem)
  | register {i : Instr} {d : RegIdx} {v : Word} (hx : s.executes) (hd : decode s.current = .ok i)
      (hdest : i.destReg = some d) (ht : t = s.writeBack d v)
  | word {d a : RegIdx} (hx : s.executes) (hd : decode s.current = .ok (.sw d a))
      (ha : (s.readReg a).toNat < 1024) (ht : t = (s.setWord (s.readReg a).toNat (s.readReg d)).advance)

theorem stepWith_writes {b : Bool} {s t : State} (h : stepWith b s = .next t) : StepWrites s t := by
  cases stepEnds_of_stepWith h with
  | stays hl => exact .nothing rfl rfl
  | pastEnd hl hp => cases b <;> exact .nothing rfl rfl
  | illegal hx hd => exact .nothing rfl rfl
  | runs hx hd he =>
    cases he with
    | writes v hdest hr => exact .register hx hd hdest rfl
    | stores d ha => exact .word hx hd ha rfl
    | advances hh hr => exact .nothing rfl rfl
    | jumps l hh hr => exact .nothing rfl rfl
    | halts => exact .nothing rfl rfl
    | badAddress hi ha => exact .nothing rfl rfl

theorem State.readReg_congr {s t : State} (h : t.regs = s.regs) (r : RegIdx) : t.readReg r = s.readReg r := by
  rw [readReg, readReg, h]

theorem State.word_congr {s t : State} (h : t.mem = s.mem) (y : Nat) : t.word y = s.word y := by
  rw [word, word, h]

end Machine

/-- Settles O29: the three ways in which a step leaves its result. -/
theorem stepChangesAtMostOneLocation : Obligations.StepChangesAtMostOneLocation := by
  intro oob s t h
  cases stepWith_writes h with
  | nothing hregs hmem => exact .inl ⟨State.readReg_congr hregs, State.word_congr hmem⟩
  | register hx hd hdest ht =>
    subst ht
    exact .inr (.inl ⟨hx, rfl, fun _ => rfl, _, _, hd, hdest, fun _ hr => s.writeBack_readReg_ne _ hr⟩)
  | word hx hd ha ht =>
    subst ht
    exact .inr (.inr ⟨hx, rfl, fun _ => rfl, _, _, hd, ha, fun _ hy => s.word_setWord_ne _ hy⟩)

/-- Settles O30: a changed word is the one that an SW stored. -/
theorem onlySwChangesMemory : Obligations.OnlySwChangesMemory := by
  intro s t y h hy
  cases stepWith_writes h with
  | nothing hregs hmem => exact absurd (State.word_congr hmem y) hy
  | register hx hd hdest ht => exact absurd (by rw [ht, State.writeBack_word]) hy
  | @word d a hx hd ha ht =>
    subst ht
    obtain rfl : y = (s.readReg a).toNat := by
      by_contra hne
      exact hy (s.word_setWord_ne _ hne)
    exact ⟨hx, ha, d, a, hd, rfl, s.word_setWord_same _ _⟩

/-- Settles O31: a changed register is the one written back. -/
theorem onlyTheDestinationRegisterChanges : Obligations.OnlyTheDestinationRegisterChanges := by
  intro s t r h hr
  cases stepWith_writes h with
  | nothing hregs hmem => exact absurd (State.readReg_congr hregs r) hr
  | @register i d v hx hd hdest ht =>
    subst ht
    obtain rfl : r = d := by
      by_contra hne
      exact hr (s.writeBack_readReg_ne _ hne)
    exact ⟨hx, rfl, i, hd, hdest⟩
  | word hx hd ha ht => exact absurd (by rw [ht]; rfl) hr

namespace Machine

/-- Two states alike in all that can be seen but the registers. -/
structure AlikeButRegs (s s' : State) : Prop where
  pc : s'.pc = s.pc
  mem : s'.mem = s.mem
  runState : s'.runState = s.runState

namespace AlikeButRegs
variable {s s' : State} (h : AlikeButRegs s s')
include h

theorem writeBack (d : RegIdx) (v : Word) : AlikeButRegs (s.writeBack d v) (s'.writeBack d v) :=
  ⟨by simp [h.pc], h.mem, rfl⟩

theorem setWord_advance (a : Nat) (v : Word) : AlikeButRegs (s.setWord a v).advance (s'.setWord a v).advance :=
  ⟨by simp [h.pc], by simp [h.mem], rfl⟩

theorem advance : AlikeButRegs s.advance s'.advance := ⟨by simp [h.pc], h.mem, rfl⟩

theorem jump (l : Slot) : AlikeButRegs (s.jump l) (s'.jump l) := ⟨rfl, h.mem, rfl⟩

theorem halt : AlikeButRegs s.halt s'.halt := ⟨h.pc, h.mem, rfl⟩

theorem raise_badAddress (a : Word) : AlikeButRegs (s.raise (.dataAddressOutOfRange a s.pc))
    (s'.raise (.dataAddressOutOfRange a s'.pc)) :=
  ⟨h.pc, h.mem, by simp [h.pc]⟩

end AlikeButRegs

/-- What two runs of an instruction from such states agree on. -/
def AgreeAfter (i : Instr) (t t' : State) : Prop :=
  AlikeButRegs t t' ∧ (t.runState = .running → ∀ d, i.destReg = some d → t'.readReg d = t.readReg d)

theorem agreeAfter_writeBack {i : Instr} {s s' : State} {d : RegIdx} {v v' : Word} (h : AlikeButRegs s s')
    (hd : i.destReg = some d) (hv : v' = v) : AgreeAfter i (s.writeBack d v) (s'.writeBack d v') := by
  subst hv
  refine ⟨h.writeBack d v', fun _ d' hd' => ?_⟩
  rw [hd] at hd'
  cases hd'
  rw [State.writeBack_readReg_same, State.writeBack_readReg_same]

theorem agreeAfter_of_not_writer {i : Instr} {t t' : State} (h : AlikeButRegs t t') (hi : i.destReg = none) :
    AgreeAfter i t t' :=
  ⟨h, fun _ d hd => by rw [hi] at hd; cases hd⟩

theorem agreeAfter_badAddress {i : Instr} {s s' : State} (a : Word) (h : AlikeButRegs s s') :
    AgreeAfter i (s.raise (.dataAddressOutOfRange a s.pc)) (s'.raise (.dataAddressOutOfRange a s'.pc)) :=
  ⟨h.raise_badAddress a, nofun⟩

/-- Each instruction is a function of the registers it reads, of memory and of `pc` (R11). -/
theorem exec_agree {i : Instr} {s s' : State} (h : AlikeButRegs s s')
    (hread : ∀ r ∈ i.readRegs, s'.readReg r = s.readReg r) :
    ∃ t t', exec i s = .next t ∧ exec i s' = .next t' ∧ AgreeAfter i t t' := by
  have access {j : Instr} {d a : RegIdx} (hj : j = .lw d a ∨ j = .sw d a) (ha : s'.readReg a = s.readReg a)
      (hge : 1024 ≤ (s.readReg a).toNat) :
      ∃ t t', exec j s = .next t ∧ exec j s' = .next t' ∧ AgreeAfter j t t' := by
    refine ⟨_, _, exec_of_badAddress hj hge, exec_of_badAddress hj (ha ▸ hge), ?_⟩
    rw [ha]
    exact agreeAfter_badAddress _ h
  cases i with
  | nop => exact ⟨_, _, exec_nop s, exec_nop s', agreeAfter_of_not_writer h.advance rfl⟩
  | halt => exact ⟨_, _, exec_halt s, exec_halt s', agreeAfter_of_not_writer h.halt rfl⟩
  | jmp l => exact ⟨_, _, exec_jmp l s, exec_jmp l s', agreeAfter_of_not_writer (h.jump l) rfl⟩
  | jg l a =>
    refine ⟨_, _, exec_jg_eq_ite l a s, exec_jg_eq_ite l a s', agreeAfter_of_not_writer ?_ rfl⟩
    rw [hread a List.mem_cons_self]
    split
    · exact h.advance
    · exact h.jump l
  | jl l a =>
    refine ⟨_, _, exec_jl_eq_ite l a s, exec_jl_eq_ite l a s', agreeAfter_of_not_writer ?_ rfl⟩
    rw [hread a List.mem_cons_self]
    split
    · exact h.jump l
    · exact h.advance
  | lw d a =>
    have ha := hread a List.mem_cons_self
    rcases Nat.lt_or_ge (s.readReg a).toNat 1024 with hlt | hge
    · exact ⟨_, _, exec_lw_of_lt d hlt, exec_lw_of_lt d (ha ▸ hlt),
        agreeAfter_writeBack h rfl (by rw [ha, State.word_congr h.mem])⟩
    · exact access (.inl rfl) ha hge
  | sw d a =>
    have ha := hread a List.mem_cons_self
    have hd := hread d (List.mem_cons_of_mem _ List.mem_cons_self)
    rcases Nat.lt_or_ge (s.readReg a).toNat 1024 with hlt | hge
    · refine ⟨_, _, exec_sw_of_lt d hlt, exec_sw_of_lt d (ha ▸ hlt), ?_⟩
      rw [ha, hd]
      exact agreeAfter_of_not_writer (h.setWord_advance _ _) rfl
    · exact access (.inr rfl) ha hge
  | add d a b =>
    exact ⟨_, _, exec_add d a b s, exec_add d a b s', agreeAfter_writeBack h rfl
      (by rw [hread a List.mem_cons_self, hread b (List.mem_cons_of_mem _ List.mem_cons_self)])⟩
  | sub d a b =>
    exact ⟨_, _, exec_sub d a b s, exec_sub d a b s', agreeAfter_writeBack h rfl
      (by rw [hread a List.mem_cons_self, hread b (List.mem_cons_of_mem _ List.mem_cons_self)])⟩
  | cmp d a b =>
    exact ⟨_, _, exec_cmp d a b s, exec_cmp d a b s', agreeAfter_writeBack h rfl
      (by rw [hread a List.mem_cons_self, hread b (List.mem_cons_of_mem _ List.mem_cons_self)])⟩
  | addi d a k =>
    exact ⟨_, _, exec_addi d a k s, exec_addi d a k s', agreeAfter_writeBack h rfl (by rw [hread a List.mem_cons_self])⟩
  | subi d a k =>
    exact ⟨_, _, exec_subi d a k s, exec_subi d a k s', agreeAfter_writeBack h rfl (by rw [hread a List.mem_cons_self])⟩
  | mov d a =>
    exact ⟨_, _, exec_mov d a s, exec_mov d a s', agreeAfter_writeBack h rfl (by rw [hread a List.mem_cons_self])⟩

end Machine

/-- Settles O32: each instruction is a function of what it reads. -/
theorem onlyListedRegistersAreRead : Obligations.OnlyListedRegistersAreRead := by
  intro i s s' t t' hpc hmem hrun hread ht ht'
  obtain ⟨u, u', hu, hu', halike, hdest⟩ := exec_agree ⟨hpc, hmem, hrun⟩ hread
  rw [hu] at ht
  rw [hu'] at ht'
  cases ht
  cases ht'
  exact ⟨halike.pc, halike.mem, halike.runState, hdest⟩

/-- What an instruction does is set by the state without `run_state` (log entry 10). -/
theorem Machine.exec_ignores_runState (i : Instr) (s : State) (r r' : RunState) :
    exec i { s with runState := r } = exec i { s with runState := r' } := by
  cases i with
  | sw d a =>
    rcases Nat.lt_or_ge (s.readReg a).toNat 1024 with h | h
    · have ha (q : RunState) : (({ s with runState := q } : State).readReg a).toNat < 1024 := h
      rw [exec_sw_of_lt d (ha r), exec_sw_of_lt d (ha r')]
      rfl
    · have ha (q : RunState) : 1024 ≤ (({ s with runState := q } : State).readReg a).toNat := h
      rw [exec_of_badAddress (.inr rfl) (ha r), exec_of_badAddress (.inr rfl) (ha r')]
      rfl
  | nop | lw _ _ | add _ _ _ | addi _ _ _ | sub _ _ _ | subi _ _ _ | cmp _ _ _ | mov _ _ | jmp _ | jg _ _ | jl _ _
  | halt => rfl

/-- Settles O33: both cores execute the same word, and every end of a step sets `run_state`. -/
theorem readyAndRunningStepAlike : Obligations.ReadyAndRunningStepAlike := by
  intro oob s hp
  have hready : ({ s with runState := .ready } : State).executes := ⟨rfl, hp⟩
  have hrunning : ({ s with runState := .running } : State).executes := ⟨rfl, hp⟩
  cases hd : decode s.current with
  | ok i =>
    rw [stepWith_of_decode hready hd, stepWith_of_decode hrunning hd]
    exact exec_ignores_runState i s _ _
  | error e =>
    rw [stepWith_of_decode_error hready hd, stepWith_of_decode_error hrunning hd]
    rfl

/-- Settles O34: the store leaves a core that executes the stored word. -/
theorem nextFetchSeesTheStore : Obligations.NextFetchSeesTheStore := by
  intro s d a hx hd haddr hp
  have ha : (s.readReg a).toNat < 1024 := by omega
  have hpc : (s.pc + 1#16).toNat = (s.readReg a).toNat := by rw [s.advance_pc_toNat hx.2, haddr]
  have hcur : (s.setWord (s.readReg a).toNat (s.readReg d)).advance.current = s.readReg d := by
    rw [State.current, State.advance_pc, State.setWord_pc, hpc, State.advance_word, State.word_setWord_same]
  refine ⟨_, (stepWith_of_decode hx hd).trans (exec_sw_of_lt d ha), hcur, fun i hi => ?_⟩
  refine stepWith_of_decode ⟨rfl, ?_⟩ (by rw [hcur, hi])
  rw [State.advance_pc, State.setWord_pc, hpc]
  exact ha

end Sys2Proof
end

section
/-! What a step reports (40_step_cycle.md R95), the end of a run (R101), the walk over zero words (45_nop_halt.md
R150), and the six blocks (R80, R81). -/

namespace Sys2Proof

open Sys2Proof.Machine

namespace Machine

/-- The report table of R95 for a step from `s` to `t`. -/
structure Reports (s t : State) (o : StepOutcome) : Prop where
  continued_iff : o = .continued ↔ s.executes ∧ t.runState = .running
  halted_iff : o = .halted ↔ t.runState = .halted
  faulted_iff : ∀ r, o = .faulted r ↔ t.runState = .faulted r
  pcOutOfBounds_iff : o = .pcOutOfBounds ↔ s.runState.live = true ∧ 1024 ≤ s.pc.toNat

theorem reports_softStop {s : State} (hl : s.runState.live = true) (hp : 1024 ≤ s.pc.toNat) :
    Reports s s (outcomeOf false s s) := by
  rw [outcomeOf_softStop hl hp]
  have hx := not_executes_of_pastEnd hp
  obtain ⟨hh, hf⟩ := RunState.ne_terminal_of_live hl
  constructor <;> simp [hx, hh, hf, hl, hp]

/-- Without the soft stop the report is what `run_state` now is. -/
theorem reports_of_not_softStop {s t : State} (hs : s.executes ∨ s.runState.live = false)
    (ht : t.runState = .halted ∨ (∃ r, t.runState = .faulted r) ∨ s.executes ∧ t.runState = .running) :
    Reports s t (outcomeOf false s t) := by
  have hstop : ¬ (s.runState.live = true ∧ 1024 ≤ s.pc.toNat) := by
    rintro ⟨hl, hp⟩
    rcases hs with hx | hn
    · exact not_executes_of_pastEnd hp hx
    · rw [hl] at hn; cases hn
  rcases ht with h | ⟨r, h⟩ | ⟨hx, h⟩
  · rw [outcomeOf_halted hs h]
    constructor <;> simp [h, hstop]
  · rw [outcomeOf_faulted (hs.imp_right .inl) h]
    exact ⟨by simp [h], by simp [h], fun q => by simp [h], by simp [hstop]⟩
  · rw [outcomeOf_continued hx h]
    constructor <;> simp [h, hx, hstop]

theorem runState_cases_of_not_live {s : State} (hl : s.runState.live = false) :
    s.runState = .halted ∨ ∃ r, s.runState = .faulted r := by
  cases h : s.runState with
  | halted => exact .inl rfl
  | faulted r => exact .inr ⟨r, rfl⟩
  | ready | running => rw [h] at hl; cases hl

theorem RunState.cases_of_ne_ready {r : RunState} (h : r ≠ .ready) :
    r = .halted ∨ (∃ q, r = .faulted q) ∨ r = .running := by
  cases r with
  | ready => exact absurd rfl h
  | running => exact .inr (.inr rfl)
  | halted => exact .inl rfl
  | faulted q => exact .inr (.inl ⟨q, rfl⟩)

theorem step_reports (s : State) : ∃ t, step s = .next t ∧ Reports s t (outcomeOf false s t) := by
  obtain ⟨t, ht, he⟩ := stepWith_ends false s
  refine ⟨t, ht, ?_⟩
  cases he with
  | stays hl =>
    exact reports_of_not_softStop (.inr hl) ((runState_cases_of_not_live hl).imp_right .inl)
  | pastEnd hl hp => exact reports_softStop hl hp
  | illegal hx hd => exact reports_of_not_softStop (.inl hx) (.inr (.inl ⟨_, rfl⟩))
  | runs hx hd he =>
    refine reports_of_not_softStop (.inl hx) ?_
    rcases RunState.cases_of_ne_ready he.ne_ready with h | h | h
    · exact .inl h
    · exact .inr (.inl h)
    · exact .inr (.inr ⟨hx, h⟩)

end Machine

/-- Settles O35: the report table of the step. -/
theorem reportsMatchTheStep : Obligations.ReportsMatchTheStep := by
  intro s
  obtain ⟨t, ht, hc, hh, hf, hp⟩ := step_reports s
  exact ⟨t, _, ht, drive_step ht, hc, hh, hf, hp⟩

namespace Machine

theorem core_run_zero (s : State) : core.run 0 s = .next s := rfl

theorem core_run_of_fixed {s : State} (h : step s = .next s) (k : Nat) : core.run k s = .next s := by
  induction k with
  | zero => rfl
  | succ k ih => rw [core_run_succ h, ih]

/-- After the end of a run the core stays where it is and reports the same (R91, R96, R97). -/
theorem step_fixed_of_ended {s t : State} {o : StepOutcome} (h : step s = .next t) (hr : Reports s t o)
    (ho : o.ended = true) : step t = .next t ∧ outcomeOf false t t = o := by
  cases o with
  | continued => cases ho
  | halted => exact (terminalCoreIsFrozen false t).1 (hr.halted_iff.mp rfl)
  | faulted r => exact (terminalCoreIsFrozen false t).2 r ((hr.faulted_iff r).mp rfl)
  | pcOutOfBounds =>
    obtain ⟨hl, hp⟩ := hr.pcOutOfBounds_iff.mp rfl
    have hs : step s = .next s := stepWith_of_pastEnd hl hp
    rw [hs] at h
    cases h
    exact ⟨hs, outcomeOf_softStop hl hp s⟩

theorem step_of_drive {s t : State} {o : StepOutcome} (h : drive s .step = .next (t, .stepped o)) :
    step s = .next t ∧ Reports s t o := by
  obtain ⟨u, hu, hr⟩ := step_reports s
  rw [drive_step hu] at h
  cases h
  exact ⟨hu, hr⟩

end Machine

/-- Settles O36: each ended run stands at a fixed point of the step. -/
theorem runEndIsFinal : Obligations.RunEndIsFinal := by
  intro s t o h ho
  obtain ⟨hs, hr⟩ := step_of_drive h
  obtain ⟨hfix, hout⟩ := step_fixed_of_ended hs hr ho
  exact ⟨by rw [drive_step hfix, hout], core_run_of_fixed hfix⟩

/-- Settles O37, by induction on the number of steps: a zero word is a NOP. -/
theorem zeroWordsAreWalkedAsNops : Obligations.ZeroWordsAreWalkedAsNops := by
  intro k
  induction k with
  | zero => exact fun s _ _ _ => ⟨s, core_run_zero s, rfl, fun _ => rfl, rfl, nofun⟩
  | succ k ih =>
    intro s hl hk hzero
    have hx : s.executes := ⟨hl, by simp; omega⟩
    have hpc : s.advance.pc.toNat = s.pc.toNat + 1 := s.advance_pc_toNat hx.2
    have hd : decode s.current = .ok .nop := (decode_nop_iff _).mpr (hzero _ (Nat.le_refl _) hx.2)
    have hstep : step s = .next s.advance := (stepWith_of_decode hx hd).trans (exec_nop s)
    obtain ⟨t, hrun, htpc, hregs, hmem, hrunning⟩ :=
      ih s.advance rfl (by omega) fun y hy hy' => hzero y (by omega) hy'
    refine ⟨t, (core_run_succ hstep k).trans hrun, by omega, hregs, hmem, fun _ => ?_⟩
    cases k with
    | zero =>
      rw [core_run_zero] at hrun
      cases hrun
      rfl
    | succ k => exact hrunning (Nat.succ_pos k)

namespace Machine

theorem executeSignals_illegal (x : DontCare) {w : Word} (s : State) (hk : kindOf w = .illegal) :
    executeSignals x w s = s.raise (.unknownOpcode w s.pc) := by
  simp only [executeSignals, hk]
  rfl

/-- Row by row, the control table of R61 makes the data path do what the instruction does (R81). -/
theorem executeSignals_known (x : DontCare) {w : Word} {m : Mnemonic} (s : State) (hk : kindOf w = .known m) :
    exec (instrOf m w) s = .next (executeSignals x w s) := by
  simp only [executeSignals, hk]
  cases m with
  | lw =>
    rcases Nat.lt_or_ge (s.readReg (op1Of w)).toNat 1024 with h | h
    · rw [instrOf, exec_lw_of_lt _ h]
      simp only [controlOf, Control.quiet, memWords_eq, Nat.not_le.mpr h]
      rfl
    · rw [instrOf, exec_of_badAddress (.inl rfl) h]
      simp only [controlOf, Control.quiet, memWords_eq, h]
      rfl
  | sw =>
    rcases Nat.lt_or_ge (s.readReg (op1Of w)).toNat 1024 with h | h
    · rw [instrOf, exec_sw_of_lt _ h]
      simp only [controlOf, Control.quiet, memWords_eq, Nat.not_le.mpr h]
      rfl
    · rw [instrOf, exec_of_badAddress (.inr rfl) h]
      simp only [controlOf, Control.quiet, memWords_eq, h]
      rfl
  | jg | jl =>
    simp only [instrOf, exec_jg, exec_jl]
    cases nonZero (s.readReg (op1Of w)) <;> rfl
  | nop | add | addi | sub | subi | cmp | mov | jmp | halt => rfl

theorem datapathStep_of_executes (x : DontCare) (oob : Bool) {s : State} (hx : s.executes) :
    datapathStep x oob s = executeSignals x s.current s := by
  rw [datapathStep, if_pos hx.1, s.fetch_of_lt hx.2]
  rfl

theorem datapathStep_of_not_executes (x : DontCare) (oob : Bool) {s : State} (hx : ¬ s.executes) :
    datapathStep x oob s = if s.runState.live then s.offEnd oob else s := by
  unfold datapathStep
  split
  · rename_i hl
    have hp : 1024 ≤ s.pc.toNat := Nat.le_of_not_lt fun hp => hx ⟨hl, hp⟩
    rw [s.fetch_of_ge hp]
  · rfl

end Machine

/-- Settles O38: the data path runs the decoder's row of the fetched word, and ends a step without a fetch as R91, R96
and R97 say. -/
theorem blocksComputeTheStep : Obligations.BlocksComputeTheStep := by
  intro x oob s
  by_cases hx : s.executes
  · rw [datapathStep_of_executes x oob hx]
    cases hk : kindOf s.current with
    | known m => rw [stepWith_of_decode hx (decode_of_kindOf hk), executeSignals_known x s hk]
    | illegal =>
      have hd : decode s.current = .error (.unassignedOpcode s.current) := by rw [decode, hk]
      rw [stepWith_of_decode_error hx hd, executeSignals_illegal x s hk]
  · rw [datapathStep_of_not_executes x oob hx, stepWith_of_not_executes hx]

end Sys2Proof
end

section
/-! The invariant of the machine, reset, `load_program` and the snapshot (10_state.md R23, R24; 40_step_cycle.md R99;
70_reset_and_hazards.md R180, R183, R184). -/

namespace Sys2Proof

open Sys2Proof.Machine

namespace Machine

/-- A Running core owes the invariant only its memory and its `pc`. -/
theorem State.inv_of_running {t : State} (hrun : t.runState = .running) (hmem : t.mem.wf = true)
    (hlow : 512 ≤ t.pc.toNat) (hhigh : t.pc.toNat ≤ 1024) : t.Inv where
  memory := hmem
  pcLow := hlow
  pcHigh := hhigh
  readyAtOffset := by rw [hrun]; nofun
  haltedAtHalt := by rw [hrun]; nofun
  faultShown := by rw [hrun]; nofun

/-- A Ready core owes it its memory and the entry point. -/
theorem State.inv_of_ready {t : State} (hrun : t.runState = .ready) (hmem : t.mem.wf = true)
    (hpc : t.pc.toNat = 512) : t.Inv where
  memory := hmem
  pcLow := hpc.ge
  pcHigh := by simp [hpc]
  readyAtOffset := fun _ => hpc
  haltedAtHalt := by rw [hrun]; nofun
  faultShown := by rw [hrun]; nofun

theorem State.fetch_of_executes {s : State} (hx : s.executes) : s.fetch = some s.current := s.fetch_of_lt hx.2

/-- HALT is reached at a HALT word (R151). -/
theorem State.Inv.halt {s : State} (h : s.Inv) (hx : s.executes) (hd : decode s.current = .ok .halt) : s.halt.Inv where
  memory := h.memory
  pcLow := h.pcLow
  pcHigh := h.pcHigh
  readyAtOffset := nofun
  haltedAtHalt := fun _ => ⟨s.current, s.fetch_of_lt hx.2, hd⟩
  faultShown := nofun

/-- Raising a fault keeps the invariant when the state shows its cause (R163). -/
theorem State.Inv.raise {s : State} (h : s.Inv) {f : FaultReason} (hf : s.showsCause f) : (s.raise f).Inv where
  memory := h.memory
  pcLow := h.pcLow
  pcHigh := h.pcHigh
  readyAtOffset := nofun
  haltedAtHalt := nofun
  faultShown := by
    rintro r hr
    cases hr
    cases f <;> exact hf

/-- Every way an instruction can end keeps the invariant. -/
theorem State.Inv.ends {s t : State} {i : Instr} (h : s.Inv) (hx : s.executes) (hd : decode s.current = .ok i)
    (he : Ends s i t) : t.Inv := by
  have hlow := h.pcLow
  have hp : s.pc.toNat < 1024 := hx.2
  have hinc : (s.pc + 1#16).toNat = s.pc.toNat + 1 := s.advance_pc_toNat hx.2
  simp only [progOffset_eq] at hlow
  have next {u : State} (hrun : u.runState = .running) (hmem : u.mem.wf = true) (hpc : u.pc = s.pc + 1#16) :
      u.Inv := State.inv_of_running hrun hmem (by rw [hpc]; omega) (by rw [hpc]; omega)
  cases he with
  | writes v hdest hr => exact next rfl h.memory rfl
  | stores d ha => exact next rfl (Memory.wf_write _ _ _ h.memory ha) rfl
  | advances hh hr => exact next rfl h.memory rfl
  | jumps l hh hr =>
    have hl := l.isLt
    have hpc := s.jump_pc_toNat l
    exact State.inv_of_running rfl h.memory (by omega) (by omega)
  | halts => exact h.halt hx hd
  | @badAddress _ d a hi ha =>
    have hdec : decode s.current = .ok (.lw d a) ∨ decode s.current = .ok (.sw d a) :=
      hd ▸ hi.imp (congrArg _) (congrArg _)
    exact h.raise ⟨rfl, ha, s.current, d, a, State.fetch_of_executes hx, hdec, rfl⟩

theorem State.Inv.step {s t : State} (h : s.Inv) (ht : step s = .next t) : t.Inv := by
  cases stepEnds_of_stepWith ht with
  | stays hl => exact h
  | pastEnd hl hp => exact h
  | illegal hx hd => exact h.raise ⟨rfl, State.fetch_of_executes hx, legal_eq_false_of_decode_error hd⟩
  | runs hx hd he => exact h.ends hx hd he

theorem State.reset_inv : State.reset.Inv := State.inv_of_ready rfl rfl rfl

theorem State.reset_word (y : Nat) : State.reset.word y = 0#16 := rfl

theorem State.reset_readReg (r : RegIdx) : State.reset.readReg r = 0#16 := by
  simp [State.reset, State.readReg]

/-- The state after a load that fits (R183). -/
def State.loaded (s : State) (words : List Word) : State :=
  { s.makeReady with mem := s.mem.writeWords Config.progOffset words }

theorem State.loadProgram_of_le (s : State) {words : List Word} (h : words.length ≤ 512) :
    s.loadProgram words = .ok (s.loaded words) := by
  rw [loadProgram, if_neg (by simp; omega)]
  rfl

theorem State.loadProgram_of_gt (s : State) {words : List Word} (h : 512 < words.length) :
    s.loadProgram words = .error .tooLong := by
  rw [loadProgram, if_pos (by simpa using h)]

theorem drive_load_of_le (s : State) {words : List Word} (h : words.length ≤ 512) :
    drive s (.load words) = .next (s.loaded words, .loaded) := by
  simp only [drive, s.loadProgram_of_le h]

theorem drive_load_of_gt (s : State) {words : List Word} (h : 512 < words.length) :
    drive s (.load words) = .next (s, .loadRefused .tooLong) := by
  simp only [drive, s.loadProgram_of_gt h]

theorem State.loaded_inv {s : State} {words : List Word} (h : words.length ≤ 512) (hmem : s.mem.wf = true) :
    (s.loaded words).Inv :=
  State.inv_of_ready rfl (Memory.wf_writeWords words _ _ hmem (by simp; omega)) rfl

theorem State.loaded_word (s : State) (words : List Word) (y : Nat) : (s.loaded words).word y =
    if 512 ≤ y then (words[y - 512]?).getD (s.word y) else s.word y :=
  Memory.read_writeWords words _ _ _

/-- Every move of the host keeps the invariant. -/
theorem State.Inv.drive {s t : State} {m : HostMove} {reply : HostReply} (h : s.Inv)
    (hd : drive s m = .next (t, reply)) : t.Inv := by
  cases m with
  | reset => cases hd; exact State.reset_inv
  | load words =>
    rcases Nat.lt_or_ge 512 words.length with hlen | hlen
    · rw [drive_load_of_gt s hlen] at hd
      cases hd
      exact h
    · rw [drive_load_of_le s hlen] at hd
      cases hd
      exact State.loaded_inv hlen h.memory
  | step =>
    obtain ⟨u, hu, -⟩ := step_reports s
    rw [drive_step hu] at hd
    cases hd
    exact h.step hu

end Machine

/-- Settles O39: each way a step can end keeps the invariant. -/
theorem stepKeepsInv : Obligations.StepKeepsInv := fun _ _ h ht => h.step ht

/-- Settles O40: the reset state is Ready at the entry point with no word listed. -/
theorem resetMeetsInv : Obligations.ResetMeetsInv := State.reset_inv

/-- Settles O41, by induction on the host's moves. -/
theorem reachableStatesMeetInv : Obligations.ReachableStatesMeetInv := by
  intro s h
  induction h with
  | reset => exact State.reset_inv
  | move m reply _ hd ih => exact ih.drive hd

/-- Settles O42: a reset gives the reset state. -/
theorem resetGivesTheResetState : Obligations.ResetGivesTheResetState := fun _ =>
  ⟨State.reset, rfl, State.reset_readReg, rfl, rfl, fun y _ => State.reset_word y⟩

/-- Settles O44: the loaded words are read back where they were written, and nowhere else. -/
theorem loadProgramEffect : Obligations.LoadProgramEffect := by
  intro s words h
  refine ⟨s.loaded words, drive_load_of_le s h, rfl, rfl, fun _ => rfl, fun i hi => ?_, fun y hy => ?_,
    State.loaded_inv h⟩
  · rw [s.loaded_word, if_pos (by omega), Nat.add_sub_cancel_left, List.getElem?_eq_getElem hi, Option.getD_some]
  · rw [s.loaded_word]
    split
    · rw [List.getElem?_eq_none (by omega), Option.getD_none]
    · rfl

/-- Settles O45: the load is refused before it writes anything. -/
theorem oversizeLoadIsRefused : Obligations.OversizeLoadIsRefused := fun s _ h => drive_load_of_gt s h

/-- Settles O46: the snapshot reads each word from 0 to 1023 in order. -/
theorem snapshotShowsAllState : Obligations.SnapshotShowsAllState := by
  intro s
  refine ⟨by simp [State.snapshot], fun y hy => ?_, fun _ => rfl, rfl, rfl⟩
  simp [State.snapshot, hy]

namespace Machine

/-- The cells of an image at the addresses `lo` to `lo + n - 1`, in canonical form. -/
def Memory.ofImageFrom (image : Nat → Word) (lo n : Nat) : Memory :=
  ((List.range' lo n).filter fun a => image a != Config.initMem a).map fun a => (a, image a)

theorem resetWith_mem (image : Nat → Word) : (resetWith image).mem = Memory.ofImageFrom image 0 1024 := by
  rw [resetWith, Memory.ofImage, Memory.ofImageFrom, List.range_eq_range']

theorem Memory.ofImageFrom_succ (image : Nat → Word) (lo n : Nat) : Memory.ofImageFrom image lo (n + 1) =
    if image lo = 0#16 then Memory.ofImageFrom image (lo + 1) n
    else (lo, image lo) :: Memory.ofImageFrom image (lo + 1) n := by
  by_cases h : image lo = 0#16 <;> simp [Memory.ofImageFrom, List.range'_succ, h]

theorem Memory.read_ofImageFrom (image : Nat → Word) (y : Nat) : ∀ n lo : Nat,
    (Memory.ofImageFrom image lo n).read y = if lo ≤ y ∧ y < lo + n then image y else 0#16
  | 0, lo => by
    rw [if_neg (by omega)]
    rfl
  | n + 1, lo => by
    have ih := Memory.read_ofImageFrom image y n (lo + 1)
    rw [Memory.ofImageFrom_succ]
    by_cases hy : lo = y
    · subst hy
      rw [if_neg (by omega)] at ih
      rw [if_pos (by omega : lo ≤ lo ∧ lo < lo + (n + 1))]
      by_cases h0 : image lo = 0#16
      · rw [if_pos h0, ih, h0]
      · rw [if_neg h0, Memory.read_cons, if_pos rfl]
    · have hrange : (lo + 1 ≤ y ∧ y < lo + 1 + n) ↔ (lo ≤ y ∧ y < lo + (n + 1)) := by omega
      simp only [hrange] at ih
      by_cases h0 : image lo = 0#16
      · rw [if_pos h0, ih]
      · rw [if_neg h0, Memory.read_cons, if_neg hy, ih]

theorem Memory.wfFrom_ofImageFrom (image : Nat → Word) : ∀ n lo : Nat, lo + n ≤ 1024 →
    (Memory.ofImageFrom image lo n).wfFrom lo = true
  | 0, _, _ => rfl
  | n + 1, lo, h => by
    have ih := Memory.wfFrom_ofImageFrom image n (lo + 1) (by omega)
    rw [Memory.ofImageFrom_succ]
    split
    · exact Memory.wfFrom_mono _ (by omega) ih
    · rename_i h0
      exact (Memory.wfFrom_cons _ _ _ _).mpr ⟨Nat.le_refl lo, by omega, h0, ih⟩

end Machine

/-- Settles O43: the image's cells from 0 to 1023 read as the image and are canonical. -/
theorem resetTakesAnyInitialMemory : Obligations.ResetTakesAnyInitialMemory := by
  intro image
  refine ⟨fun y hy => ?_, ?_, rfl, rfl, rfl⟩
  · rw [State.word, resetWith_mem, Memory.read_ofImageFrom, if_pos (by omega)]
  · rw [Memory.wf, resetWith_mem]
    exact Memory.wfFrom_ofImageFrom image 1024 0 (by omega)

end Sys2Proof
end

section
/-! The assembler (30_encoding.md section 7, R62 to R72): a statement's word, and the words of a source. -/

namespace Sys2Proof

open Sys2Proof.Machine

namespace Machine

/-- What a statement that assembles has passed (R66). -/
theorem encodeStatement_ok_iff {table : LabelTable} {line : Nat} {c : List Char} {ops : List Operand} {w : Word} :
    encodeStatement table line c ops = .ok w ↔ ∃ m fields, lookupMnemonic c = some m ∧ m.countOk ops = true ∧
      operandValues table line (m.roles.zip ops) = .ok fields ∧ packStatement m fields = w := by
  unfold encodeStatement
  cases lookupMnemonic c with
  | none => simp
  | some m =>
    cases hc : m.countOk ops with
    | false => simp [hc]
    | true =>
      cases hv : operandValues table line (m.roles.zip ops) with
      | error e => simp [hc, hv]
      | ok fields => simp [hc, hv]

/-- The first operand's value is one of the values (R66). -/
theorem operandValue_ok_of_cons {table : LabelTable} {line : Nat} {role : Role} {op : Operand}
    {rest : List (Role × Operand)} {fields : List Int}
    (h : operandValues table line ((role, op) :: rest) = .ok fields) :
    ∃ v, operandValue table line role op = .ok v := by
  unfold operandValues at h
  split at h
  · cases h
  · rename_i v hv
    exact ⟨v, hv⟩

theorem packStatement_eq (m : Mnemonic) (fields : List Int) : packStatement m fields = fieldsToWord m.opcode
    (BitVec.ofInt 4 (fields.getD 0 0)) (BitVec.ofInt 4 (fields.getD 1 0)) (BitVec.ofInt 4 (fields.getD 2 0)) := by
  rw [packStatement, packWord, field_ofInt_natCast_toNat]

/-- The word of a packed statement is an instruction of its mnemonic; a NOP has no operands (R54, R66). -/
theorem packStatement_legal {m : Mnemonic} {fields : List Int} (h : m = .nop → fields = []) :
    (packStatement m fields).legal = true := by
  rw [legal_iff_decode, packStatement_eq]
  by_cases hm : m = .nop
  · rw [h hm, hm]
    exact ⟨.nop, rfl⟩
  · exact ⟨_, decode_fieldsToWord (kindOfOpcode_opcode hm) _ _ _⟩

theorem encodeStatement_legal {table : LabelTable} {line : Nat} {c : List Char} {ops : List Operand} {w : Word}
    (h : encodeStatement table line c ops = .ok w) : w.legal = true := by
  obtain ⟨m, fields, -, -, hv, rfl⟩ := encodeStatement_ok_iff.mp h
  refine packStatement_legal ?_
  rintro rfl
  cases hv
  rfl

theorem encodeRecord_legal {table : LabelTable} {r : Record} {w : Word} (h : encodeRecord table r = .ok w) :
    w.legal = true := by
  cases r with
  | placeholder =>
    cases h
    exact packStatement_legal fun _ => rfl
  | statement line c ops => exact encodeStatement_legal h

/-- Pass 1's table holds exactly the labels, each at its slot (R64). -/
theorem Collected.lookup_iff {lines : List SourceLine} {table : LabelTable} {records : List Record}
    (h : Collected [] 0 lines table records) (name : List Char) (slot : Nat) :
    table.lookup name = some slot ↔ (slotLines lines)[slot]? = some (.labelDecl name) := by
  rw [h.lookup]
  simp

end Machine

/-- Settles O47: each record is one line's, and each word one record's. -/
theorem oneWordPerLineAndLabel : Obligations.OneWordPerLineAndLabel := by
  intro lines words h
  obtain ⟨table, records, hcol, henc⟩ := assembleLines_ok h
  obtain ⟨hlen, hget⟩ := encodeRecords_ok table records words henc
  refine ⟨hlen.trans hcol.length, fun i name hi => ?_, table, hcol.lookup_iff, fun i c ops hi line => ?_⟩
  · obtain ⟨w, hw, hword⟩ := hget i _ (hcol.placeholder i name hi)
    cases hw
    exact hword
  · obtain ⟨line', hrec⟩ := hcol.statement i c ops hi
    obtain ⟨w, hw, hword⟩ := hget i _ hrec
    exact ⟨w, encodeStatement_ok_line hw line, hword⟩

/-- Settles O49: each word is a record's. -/
theorem assembledWordsAreLegal : Obligations.AssembledWordsAreLegal := by
  intro text words h w hw
  obtain ⟨table, records, -, henc⟩ := assembleLines_ok h
  obtain ⟨hlen, hget⟩ := encodeRecords_ok table records words henc
  obtain ⟨k, hk, rfl⟩ := List.mem_iff_getElem.mp hw
  obtain ⟨w', hw', hword⟩ := hget k _ (List.getElem?_eq_getElem (hlen ▸ hk))
  rw [List.getElem?_eq_getElem hk] at hword
  cases hword
  exact encodeRecord_legal hw'

namespace Machine

/-- Each command is found in the opcode table under its name (R63, R66). -/
theorem lookupMnemonic_mnemonicName (m : Mnemonic) : lookupMnemonic (mnemonicName m) = some m := by
  cases m <;> decide

/-- The word of a command whose operands have the values `fields`. -/
theorem encodeStatement_of_values {table : LabelTable} {line : Nat} (m : Mnemonic) {ops : List Operand}
    {fields : List Int} {w : Word} (hc : m.countOk ops = true)
    (hv : operandValues table line (m.roles.zip ops) = .ok fields) (hw : packStatement m fields = w) :
    encodeStatement table line (mnemonicName m) ops = .ok w :=
  encodeStatement_ok_iff.mpr ⟨m, fields, lookupMnemonic_mnemonicName m, hc, hv, hw⟩

section Label
variable {table : LabelTable} {name : List Char} {slot : Nat} (h : table.lookup name = some slot) (line n : Nat)
include h

theorem operandValues_label : operandValues table line [(.label, .label name)] = .ok [(slot : Int)] := by
  simp only [operandValues, operandValue, h]

theorem operandValues_label_reg :
    operandValues table line [(.label, .label name), (.reg, .reg n)] = .ok [(slot : Int), (n : Int)] := by
  simp only [operandValues, operandValue, h]

end Label

end Machine

/-- Settles O50: the operands' values are the fields of the packed word, in source order. -/
theorem statementsEncodeTheirInstruction : Obligations.StatementsEncodeTheirInstruction := by
  intro table line n0 n1 n2 v
  refine ⟨encodeStatement_of_values .add rfl rfl ?_, encodeStatement_of_values .sub rfl rfl ?_,
    encodeStatement_of_values .cmp rfl rfl ?_, encodeStatement_of_values .addi rfl rfl ?_,
    encodeStatement_of_values .subi rfl rfl ?_, encodeStatement_of_values .mov rfl rfl ?_,
    encodeStatement_of_values .lw rfl rfl ?_, encodeStatement_of_values .sw rfl rfl ?_,
    encodeStatement_of_values .halt rfl rfl ?_, encodeStatement_of_values .nop rfl rfl ?_, fun name slot h =>
    ⟨encodeStatement_of_values .jmp rfl (operandValues_label h line) ?_,
      encodeStatement_of_values .jg rfl (operandValues_label_reg h line n1) ?_,
      encodeStatement_of_values .jl rfl (operandValues_label_reg h line n1) ?_⟩⟩
  all_goals simp [packStatement_eq, encode, Instr.mnemonic]

theorem encode_jmp_digits (l : Field) : encode (.jmp l) = BitVec.ofNat 16 (0x8000 + l.toNat * 0x100) :=
  (ofNat_fields 0x8#4 l 0#4 0#4).symm

theorem encode_jg_digits (l a : Field) :
    encode (.jg l a) = BitVec.ofNat 16 (0x9000 + l.toNat * 0x100 + a.toNat * 0x10) :=
  (ofNat_fields 0x9#4 l a 0#4).symm

theorem encode_jl_digits (l a : Field) :
    encode (.jl l a) = BitVec.ofNat 16 (0xA000 + l.toNat * 0x100 + a.toNat * 0x10) :=
  (ofNat_fields 0xA#4 l a 0#4).symm

/-- Settles O48: the table gives the jump's label its slot, and the jump packs it. -/
theorem jumpTargetsTheLabelSlot : Obligations.JumpTargetsTheLabelSlot := by
  intro lines words i j n name h hi
  obtain ⟨-, -, table, hlookup, hword⟩ := oneWordPerLineAndLabel lines words h
  obtain ⟨-, -, -, -, -, -, -, -, -, -, hjumps⟩ := statementsEncodeTheirInstruction table 0 0 n 0 0
  obtain ⟨hjmp, hjg, hjl⟩ := hjumps name i ((hlookup name i).mpr hi)
  have word {c : List Char} {ops : List Operand} {w : Word} (hw : encodeStatement table 0 c ops = .ok w)
      (hj : (slotLines lines)[j]? = some (.statement c ops)) : words[j]? = some w := by
    obtain ⟨w', hw', hget⟩ := hword j c ops hj 0
    rw [hw] at hw'
    cases hw'
    exact hget
  exact ⟨fun hj => (word hjmp hj).trans (congrArg some (encode_jmp_digits _)),
    fun hj => (word hjg hj).trans (congrArg some (encode_jg_digits _ _)),
    fun hj => (word hjl hj).trans (congrArg some (encode_jl_digits _ _))⟩

namespace Machine

theorem assembleLines_error_of {lines : List SourceLine} (h : ∀ words, assembleLines lines ≠ .ok words) :
    ∃ e, assembleLines lines = .error e := by
  cases hl : assembleLines lines with
  | error e => exact ⟨e, rfl⟩
  | ok words => exact absurd hl (h words)

theorem mem_slotLines_iff {l : SourceLine} (hl : l ≠ .blank) (lines : List SourceLine) :
    l ∈ slotLines lines ↔ l ∈ lines := by
  simp [slotLines, hl]

/-- In a source that assembles, each statement encodes under a table that holds declared labels only. -/
theorem encodeStatement_of_mem {lines : List SourceLine} {words : List Word} {c : List Char} {ops : List Operand}
    (h : assembleLines lines = .ok words) (hmem : .statement c ops ∈ lines) :
    ∃ table w, encodeStatement table 0 c ops = .ok w ∧
      ∀ name slot, table.lookup name = some slot → .labelDecl name ∈ lines := by
  obtain ⟨-, -, table, hlookup, hword⟩ := oneWordPerLineAndLabel lines words h
  obtain ⟨k, hk⟩ := List.mem_iff_getElem?.mp ((mem_slotLines_iff (l := .statement c ops) nofun lines).mpr hmem)
  obtain ⟨w, hw, -⟩ := hword k c ops hk 0
  exact ⟨table, w, hw, fun name slot hs =>
    (mem_slotLines_iff (l := .labelDecl name) nofun lines).mp (List.mem_of_getElem? ((hlookup name slot).mp hs))⟩

/-- In a source that assembles a label has one slot. -/
theorem labelDecl_slot_unique {lines : List SourceLine} {words : List Word} {name : List Char} {i j : Nat}
    (h : assembleLines lines = .ok words) (hi : (slotLines lines)[i]? = some (.labelDecl name))
    (hj : (slotLines lines)[j]? = some (.labelDecl name)) : i = j := by
  obtain ⟨-, -, table, hlookup, -⟩ := oneWordPerLineAndLabel lines words h
  have h1 := (hlookup name i).mpr hi
  rw [(hlookup name j).mpr hj] at h1
  cases h1
  rfl

/-- A jump that assembles names a label of the table (R66, R68). -/
theorem lookup_of_encodeStatement_jump {table : LabelTable} {line : Nat} {c name : List Char} {rest : List Operand}
    {w : Word} (hc : c ∈ ["JMP".toList, "JG".toList, "JL".toList])
    (h : encodeStatement table line c (.label name :: rest) = .ok w) : ∃ slot, table.lookup name = some slot := by
  obtain ⟨m, fields, hm, -, hv, -⟩ := encodeStatement_ok_iff.mp h
  have hroles : ∃ roles, m.roles = .label :: roles := by
    simp only [List.mem_cons, List.not_mem_nil, or_false] at hc
    rcases hc with rfl | rfl | rfl
    · cases (lookupMnemonic_mnemonicName .jmp).symm.trans hm; exact ⟨_, rfl⟩
    · cases (lookupMnemonic_mnemonicName .jg).symm.trans hm; exact ⟨_, rfl⟩
    · cases (lookupMnemonic_mnemonicName .jl).symm.trans hm; exact ⟨_, rfl⟩
  obtain ⟨roles, hroles⟩ := hroles
  rw [hroles] at hv
  obtain ⟨v, hv⟩ := operandValue_ok_of_cons hv
  cases hl : table.lookup name with
  | some slot => exact ⟨slot, rfl⟩
  | none => simp [operandValue, hl] at hv

end Machine

/-- Settles O51: a source that assembles has one slot for a label, a table entry for each jump's label, and only
commands of the opcode table. -/
theorem badSourceNeverAssembles : Obligations.BadSourceNeverAssembles := by
  refine ⟨fun before between after name => ?_, fun lines c name rest hc hmem hdecl => ?_, fun lines ops hmem => ?_⟩
  · refine assembleLines_error_of fun words h => ?_
    have hslots : slotLines (before ++ .labelDecl name :: between ++ .labelDecl name :: after) =
        slotLines before ++ .labelDecl name :: (slotLines between ++ .labelDecl name :: slotLines after) := by
      simp [slotLines]
    have : (slotLines before).length = (slotLines before).length + (1 + (slotLines between).length) := by
      apply labelDecl_slot_unique (name := name) h
      · rw [hslots, List.getElem?_append_right (Nat.le_refl _)]
        simp
      · rw [hslots, List.getElem?_append_right (Nat.le_add_right _ _)]
        simp [Nat.add_comm 1]
    omega
  · refine assembleLines_error_of fun words h => ?_
    obtain ⟨table, w, hw, hdeclared⟩ := encodeStatement_of_mem h hmem
    obtain ⟨slot, hslot⟩ := lookup_of_encodeStatement_jump hc hw
    exact hdecl (hdeclared name slot hslot)
  · refine assembleLines_error_of fun words h => ?_
    obtain ⟨table, w, hw, -⟩ := encodeStatement_of_mem h hmem
    obtain ⟨m, -, hm, -⟩ := encodeStatement_ok_iff.mp hw
    cases lookup_CMPI.symm.trans hm

end Sys2Proof
end
